-- ==== Sys2Proof/Word.lean ====
section
/-! DEFINITION. The widths of the spec (00_scope.md R9): a nibble is 4 bits, a byte 8, an address 7. -/

namespace Sys2Proof

/-- A byte, 8 bits (R9): a controller code, a character, an ExpanderByte, the expander's port. -/
abbrev Byte := BitVec 8

/-- A nibble, 4 bits (R9). -/
abbrev Nibble := BitVec 4

/-- A DDRAM address, 7 bits (R9, R47). -/
abbrev Addr := BitVec 7

end Sys2Proof
end

