-- ==== Sys2Proof/Syntax.lean ====
section
/-! DEFINITION. The operations of the block: one constructor of `Instr` per row of spec/opcode_table.json
(30_encoding.md R63, R64). Operands are naturals, as the port offers them: an operand outside its range is
expressible and is refused (R65). -/

namespace Sys2Proof

/-- The four waits a `WAIT` can name (41_protocol_encoder.md R98); their lower bounds are `WaitName.micros`. -/
inductive WaitName where
  | tEP
  | tCLR
  | tINIT3
  | tPWR
  deriving DecidableEq, Repr, Inhabited

/-- The operation forms of the command port (R63) and the three primitives (R64). -/
inductive Instr where
  /-- `INIT` (R116). -/
  | init
  /-- `CLEAR` (R101). -/
  | clear
  /-- `HOME` (R103). -/
  | home
  /-- `ENTRY dir, shift` (R104): dir 1 = the cursor moves right, shift 1 = the display shifts (R69). -/
  | entry (dir shift : Nat)
  /-- `DISPCTL on, cursor, blink` (R106): 1 = display on, cursor shown, blink on (R69). -/
  | dispctl (on cursor blink : Nat)
  /-- `FUNCSET width, lines, font` (R108): 1 = 8-bit bus, two lines, 5x10 dots (R69). -/
  | funcset (width lines font : Nat)
  /-- `SETDDRAM addr` (R110). -/
  | setddram (addr : Nat)
  /-- `WRITE ch` (R111). -/
  | write (ch : Nat)
  /-- `SETCURSOR row, col` (R112). -/
  | setcursor (row col : Nat)
  /-- `DETACH` (R147). -/
  | detach
  /-- `NIBBLE n, rs` (R91), a primitive. -/
  | nibble (n rs : Nat)
  /-- `BYTE v, rs` (R95), a primitive. -/
  | byte (v rs : Nat)
  /-- `WAIT T` (R98), a primitive. -/
  | wait (t : WaitName)
  deriving DecidableEq, Repr, Inhabited

/-- A primitive with its operands in range, as the operations use it (R64): what the sequencer holds of a
running operation. -/
inductive Prim where
  | nibble (n : Nibble) (rs : Bool)
  | byte (v : Byte) (rs : Bool)
  | wait (t : WaitName)
  deriving DecidableEq, Repr

/-- The primitive as an instruction of the table. -/
def Prim.toInstr : Prim → Instr
  | .nibble n rs => .nibble n.toNat rs.toNat
  | .byte v rs => .byte v.toNat rs.toNat
  | .wait t => .wait t

end Sys2Proof
end

