-- ==== Sys2Proof/Config.lean ====
section
/-! DEFINITION. What an implementation fixes: the parameters of 00_scope.md R7; and the free values, constants
with no body that nothing can evaluate: the OPEN parameters, the bus oracle (R13) and the draws of the spec. -/

namespace Sys2Proof

/-- `LINE_WIDTH`, 16 or 20 (R7, 10_state.md R27); read by no rule of the block (R114). -/
inductive LineWidth where
  | w16
  | w20
  deriving DecidableEq, Repr, Inhabited

/-- The configuration registers (10_state.md R27), bound at attach and never written (R28). -/
structure Cfg where
  /-- `DEV_ADDR`, the expander's 7-bit I2C address. -/
  devAddr : BitVec 7
  /-- `BL_ON`, the backlight bit of every ExpanderByte. -/
  blOn : Bool
  lineWidth : LineWidth
  /-- `LINE_COUNT`; only 2 is legal (90_conflicts.md C3). -/
  lineCount : Nat
  rsBit : Nat
  enBit : Nat
  blBit : Nat
  deriving DecidableEq, Repr

/-- The kinds of a `BusError` (10_state.md R24); NONE is `Option.none`. -/
inductive BusKind where
  | nack
  | timeout
  | other
  deriving DecidableEq, Repr, Inhabited

/-- What a send returns: `ok` or `BusError(kind)` (20_memory.md R44). -/
inductive Reply where
  | ok
  | error (kind : BusKind)
  deriving DecidableEq, Repr, Inhabited

/-- What the bus does with one send: the answer and, where it fails, whether the byte reached the port all the
same, which the spec leaves open (60_exceptions.md R140). -/
inductive Turn where
  | ok
  | error (kind : BusKind) (landed : Bool)
  deriving DecidableEq, Repr, Inhabited

/-- Which half of a byte the controller expects next in 4-bit mode (20_memory.md R57). -/
inductive Half where
  | hi
  | lo
  deriving DecidableEq, Repr, Inhabited

/-- The controller's registers as the reference observer keeps them (20_memory.md R60). -/
structure Regs where
  /-- address counter -/
  ac : Addr
  disp : Bool
  cur : Bool
  blink : Bool
  /-- entry mode: 1 = the address counter moves up -/
  id : Bool
  sh : Bool
  /-- the last function-set code -/
  fn : Byte
  deriving DecidableEq, Repr, Inhabited

/-- `DEV_ADDR` of the attach, OPEN (92_eei_decisions.md D3): free. -/
opaque Config.devAddr : BitVec 7

/-- `BL_ON` of the attach, OPEN (D4): free. -/
opaque Config.blOn : Bool

/-- `LINE_WIDTH` of the attach, OPEN (D18): free. -/
opaque Config.lineWidth : LineWidth

/-- The attach arguments that `State.reset` binds: the OPEN parameters free, the bit positions at the spec's
defaults 0, 2, 3 (D1), `LINE_COUNT` = 2 (D18). -/
def Config.attached : Cfg :=
  { devAddr := Config.devAddr, blOn := Config.blOn, lineWidth := Config.lineWidth, lineCount := 2,
    rsBit := 0, enBit := 2, blBit := 3 }

/-- The expander's output latch after power-up: any byte (70_reset_and_hazards.md R156): free. -/
opaque Config.powerUpPort : Byte

/-- What the bus does with the n-th send of the run, where the environment has fixed nothing (R13): free. -/
opaque Config.busTurn : Nat → Turn

/-- A drawn `half` (R57, R165): free, one per draw. -/
opaque Config.freeHalf : Nat → Half

/-- A drawn nibble: `hi` (R57) or the controller's undriven D3..D0 (R58): free, one per draw. -/
opaque Config.freeNibble : Nat → Nibble

/-- Drawn controller registers (R55, R57, R60, R109): free, one set per draw. -/
opaque Config.freeRegs : Nat → Regs

/-- A drawn count of latches of nibble 0x3 (R55): free, one per draw. -/
opaque Config.freeCount : Nat → Nat

/-- A drawn cell of the 80 cells of the line ranges (R60): free, one per draw. -/
opaque Config.freePosition : Nat → Nat

/-- The byte of a DDRAM cell that no known write has reached since draw `era` (R57, R60): free, one per draw
and address. -/
opaque Config.freeCell : Nat → Nat → Byte

end Sys2Proof
end

