-- ==== Sys2Proof/Machine/Operands.lean ====
section
/-! DEFINITION. The legal parameter sets (00_scope.md R8) and every operand form of the spec as a pure function: field
assembly (30_encoding.md R70), the controller codes (R68), the DDRAM address of a display position (20_memory.md R47),
the halves of a byte (R49), the ExpanderByte (40_expander_format.md R84) and the lower bounds of the waits (00_scope.md
R7). -/

namespace Sys2Proof

/-- A legal parameter set: three distinct positions in 0..3 (R8) and two lines (R7, C3). -/
def Cfg.legal (c : Cfg) : Bool :=
  decide (c.rsBit < 4) && decide (c.enBit < 4) && decide (c.blBit < 4) &&
  decide (c.rsBit ≠ c.enBit) && decide (c.rsBit ≠ c.blBit) && decide (c.enBit ≠ c.blBit) &&
  decide (c.lineCount = 2)

/-- The lower bound of a wait in microseconds (R7, 70_reset_and_hazards.md R161). -/
def WaitName.micros : WaitName → Nat
  | .tEP => 500
  | .tCLR => 2000
  | .tINIT3 => 5000
  | .tPWR => 50000

namespace Machine

/-- The high nibble `v[7:4]` (R9, R49). -/
def highNibble (v : Byte) : Nibble := v.extractLsb' 4 4

/-- The low nibble `v[3:0]` (R9, R49). -/
def lowNibble (v : Byte) : Nibble := v.extractLsb' 0 4

/-- The byte whose high nibble is `h` and whose low nibble is `l` (20_memory.md R59). -/
def joinNibbles (h l : Nibble) : Byte := h ++ l

/-- One flag at bit position `pos` of a byte: `b << pos`. -/
def flagAt (b : Bool) (pos : Nat) : Byte := (BitVec.ofBool b).setWidth 8 <<< pos

/-- `fmt(n, rs, en)`: one ExpanderByte (R84, layout R67). -/
def fmt (c : Cfg) (n : Nibble) (rs en : Bool) : Byte :=
  (n.setWidth 8 <<< 4) ||| flagAt c.blOn c.blBit ||| flagAt rs c.rsBit ||| flagAt en c.enBit

/-- An unsigned operand placed at bit position `pos` of a code (R70). -/
def field (v pos : Nat) : Byte := BitVec.ofNat 8 v <<< pos

/-- Code of `CLEAR` (R68, R101). -/
def codeClear : Byte := 0x01#8

/-- Code of `HOME` (R68, R103). -/
def codeHome : Byte := 0x02#8

/-- Code of `ENTRY` (R68, R104): `0x04 | dir << 1 | shift`. -/
def codeEntry (dir shift : Nat) : Byte := 0x04#8 ||| field dir 1 ||| field shift 0

/-- Code of `DISPCTL` (R68, R106): `0x08 | on << 2 | cursor << 1 | blink`. -/
def codeDispctl (on cursor blink : Nat) : Byte :=
  0x08#8 ||| field on 2 ||| field cursor 1 ||| field blink 0

/-- Code of `FUNCSET` (R68, R108): `0x20 | width << 4 | lines << 3 | font << 2`. -/
def codeFuncset (width lines font : Nat) : Byte :=
  0x20#8 ||| field width 4 ||| field lines 3 ||| field font 2

/-- Code of `SETDDRAM` (R68, R110): `0x80 | addr`. -/
def codeSetddram (addr : Addr) : Byte := 0x80#8 ||| addr.setWidth 8

/-- The DDRAM address of a display position as sent (R47, R112): the 9-bit sum of the row's base and the column,
modulo 128; columns are not range-checked (R48). -/
def cursorAddress (row col : Nat) : Addr :=
  ((if row = 0 then 0x00#9 else 0x40#9) + BitVec.ofNat 9 col).setWidth 7

/-- Code of `SETCURSOR` (R112): the `SETDDRAM` code of the computed address. -/
def codeSetcursor (row col : Nat) : Byte := codeSetddram (cursorAddress row col)

end Machine

end Sys2Proof
end

