-- ==== Sys2Proof/WellFormed.lean ====
section
/-! DEFINITION. Operand legality (30_encoding.md R65, R91, R95) and which forms the command port accepts
(R63, R64). -/

namespace Sys2Proof

/-- Every operand is in its range (R65; for the primitives R91 and R95). -/
def Instr.wellFormed : Instr → Bool
  | .init => true
  | .clear => true
  | .home => true
  | .entry dir shift => decide (dir < 2) && decide (shift < 2)
  | .dispctl on cursor blink => decide (on < 2) && decide (cursor < 2) && decide (blink < 2)
  | .funcset width lines font => decide (width < 2) && decide (lines < 2) && decide (font < 2)
  | .setddram addr => decide (addr < 128)
  | .write ch => decide (ch < 256)
  | .setcursor row col => decide (row < 2) && decide (col < 256)
  | .detach => true
  | .nibble n rs => decide (n < 16) && decide (rs < 2)
  | .byte v rs => decide (v < 256) && decide (rs < 2)
  | .wait _ => true

/-- The forms the command port accepts (R63); the three primitives are not on it (R64). -/
def Instr.onPort : Instr → Bool
  | .nibble _ _ => false
  | .byte _ _ => false
  | .wait _ => false
  | .init => true
  | .clear => true
  | .home => true
  | .entry _ _ => true
  | .dispctl _ _ _ => true
  | .funcset _ _ _ => true
  | .setddram _ => true
  | .write _ => true
  | .setcursor _ _ => true
  | .detach => true

/-- The forms that make exactly one byte transfer: the seven command forms and `SETCURSOR` (R63, R82). -/
def Instr.isCommand : Instr → Bool
  | .init => false
  | .detach => false
  | .nibble _ _ => false
  | .byte _ _ => false
  | .wait _ => false
  | .clear => true
  | .home => true
  | .entry _ _ => true
  | .dispctl _ _ _ => true
  | .funcset _ _ _ => true
  | .setddram _ => true
  | .write _ => true
  | .setcursor _ _ => true

end Sys2Proof
end

