-- ==== Sys2Proof/Decode.lean ====
section
/-! DEFINITION. The decoders of the spec, total, rejecting by name: a delivered controller byte (30_encoding.md
R81), the words of spec/opcode_table.json (R80), an ExpanderByte (40_expander_format.md R90) and an emitted
trace (R73). After them the encoders, written from the tables R67, R68, R71 and R80. -/

namespace Sys2Proof

/-- Why a decoder refuses. -/
inductive DecodeError where
  /-- An instruction-path code no operation produces: `NOT_GENERATED(c)` (R75, R81). -/
  | notGenerated (c : Byte)
  /-- No row of the opcode table has a word of this length (R80). -/
  | noSuchLength (nbits : Nat)
  /-- Bits are set above the row's word (R80). -/
  | strayBits (w : Nat)
  /-- Not an output of the formatter: unused bit 1 or BL bit wrong (R90). -/
  | notFormatted (b : Byte)
  /-- Three sends that are not of the form (x, x with E, x) with E of x low (R73). -/
  | badTriple (x y z : Byte)
  /-- A number of sends that is no multiple of three, or of six where bytes are read (R73). -/
  | cutShort
  /-- Two nibbles of one byte with different register selects (R59). -/
  | mixedSelect
  deriving DecidableEq, Repr

/-- Decode a delivered controller byte (rs, c) into a command (R81). -/
def decodeCode (rs : Bool) (c : Byte) : Except DecodeError Instr :=
  if rs then .ok (.write c.toNat)
  else if c.getLsbD 7 then .ok (.setddram (c &&& 0x7F#8).toNat)
  else if c &&& 0xE3#8 = 0x20#8 then
    .ok (.funcset (c.getLsbD 4).toNat (c.getLsbD 3).toNat (c.getLsbD 2).toNat)
  else if c &&& 0xF8#8 = 0x08#8 then
    .ok (.dispctl (c.getLsbD 2).toNat (c.getLsbD 1).toNat (c.getLsbD 0).toNat)
  else if c &&& 0xFC#8 = 0x04#8 then .ok (.entry (c.getLsbD 1).toNat (c.getLsbD 0).toNat)
  else if c = 0x02#8 then .ok .home
  else if c = 0x01#8 then .ok .clear
  else .error (.notGenerated c)

/-- Decode the 9-bit word `rs << 8 | code` of the command rows of the table (R80). -/
def decodeWord9 (w : BitVec 9) : Except DecodeError Instr :=
  decodeCode (w.getLsbD 8) (w.setWidth 8)

/-- Decode the 5-bit word `rs << 4 | n` of the NIBBLE row (R80). -/
def decodeWord5 (w : BitVec 5) : Instr :=
  .nibble (w.setWidth 4).toNat (w.getLsbD 4).toNat

/-- Decode an opcode-table word of `nbits` bits, whole bytes: one byte holds the 5-bit word of NIBBLE, two bytes
the 9-bit word of a command (R80); the bits above the word are 0. -/
def decodeTable (nbits w : Nat) : Except DecodeError Instr :=
  if nbits = 8 then
    if w < 32 then .ok (decodeWord5 (BitVec.ofNat 5 w)) else .error (.strayBits w)
  else if nbits = 16 then
    if w < 512 then decodeWord9 (BitVec.ofNat 9 w) else .error (.strayBits w)
  else .error (.noSuchLength nbits)

/-- The instruction the decoder reads from a table word, `none` where it refuses. -/
def decodeTableWord (nbits w : Nat) : Option Instr := (decodeTable nbits w).toOption

/-- The fields (n, rs, en) of an ExpanderByte the formatter produced (R90). -/
def unfmt (c : Cfg) (b : Byte) : Except DecodeError (Nibble × Bool × Bool) :=
  if Machine.fmt c (Machine.highNibble b) (b.getLsbD c.rsBit) (b.getLsbD c.enBit) = b then
    .ok (Machine.highNibble b, b.getLsbD c.rsBit, b.getLsbD c.enBit)
  else .error (.notFormatted b)

/-- The nibble and register select of one triple of sends (R73). -/
def decodeTriple (c : Cfg) (x y z : Byte) : Except DecodeError (Nibble × Bool) :=
  match unfmt c x with
  | .error e => .error e
  | .ok (n, rs, en) =>
    if en = false ∧ y = x ||| Machine.flagAt true c.enBit ∧ z = x then .ok (n, rs)
    else .error (.badTriple x y z)

/-- The nibbles of a fault-free sequence of sends, in groups of three (R73). -/
def decodeNibbles (c : Cfg) : List Byte → Except DecodeError (List (Nibble × Bool))
  | [] => .ok []
  | x :: y :: z :: rest =>
    match decodeTriple c x y z, decodeNibbles c rest with
    | .error e, _ => .error e
    | .ok _, .error e => .error e
    | .ok g, .ok gs => .ok (g :: gs)
  | _ => .error .cutShort

/-- Nibbles paired into bytes, high nibble first, both with the same register select (R59, R73, R95). -/
def pairNibbles : List (Nibble × Bool) → Except DecodeError (List (Bool × Byte))
  | [] => .ok []
  | (h, r) :: (l, r') :: rest =>
    if r = r' then
      match pairNibbles rest with
      | .error e => .error e
      | .ok bs => .ok ((r, Machine.joinNibbles h l) :: bs)
    else .error .mixedSelect
  | _ => .error .cutShort

/-- Delivered bytes decoded into commands, in order (R81). -/
def decodeCodes : List (Bool × Byte) → Except DecodeError (List Instr)
  | [] => .ok []
  | (rs, c) :: rest =>
    match decodeCode rs c, decodeCodes rest with
    | .error e, _ => .error e
    | .ok _, .error e => .error e
    | .ok i, .ok is => .ok (i :: is)

/-- The commands carried by the sends of a fault-free run of command operations (R73, R81). -/
def decodeSends (c : Cfg) (bytes : List Byte) : Except DecodeError (List Instr) :=
  match decodeNibbles c bytes with
  | .error e => .error e
  | .ok gs =>
    match pairNibbles gs with
    | .error e => .error e
    | .ok bs => decodeCodes bs

/-- The raw nibbles and then the commands carried by the sends of a fault-free INIT: the four groups of steps 2
and 3 are raw, the later ones are paired into bytes (R72, R73). -/
def decodeInitSends (c : Cfg) (bytes : List Byte) :
    Except DecodeError (List (Nibble × Bool) × List Instr) :=
  match decodeNibbles c (bytes.take 12), decodeSends c (bytes.drop 12) with
  | .error e, _ => .error e
  | .ok _, .error e => .error e
  | .ok gs, .ok is => .ok (gs, is)

/-! The encoders. -/

/-- The register select and the controller code a command form is sent with (R68, R112). -/
def encodeCode : Instr → Option (Bool × Byte)
  | .clear => some (false, Machine.codeClear)
  | .home => some (false, Machine.codeHome)
  | .entry dir shift => some (false, Machine.codeEntry dir shift)
  | .dispctl on cursor blink => some (false, Machine.codeDispctl on cursor blink)
  | .funcset width lines font => some (false, Machine.codeFuncset width lines font)
  | .setddram addr => some (false, Machine.codeSetddram (BitVec.ofNat 7 addr))
  | .write ch => some (true, BitVec.ofNat 8 ch)
  | .setcursor row col => some (false, Machine.codeSetcursor row col)
  | .init => none
  | .detach => none
  | .nibble _ _ => none
  | .byte _ _ => none
  | .wait _ => none

/-- The form a decoder recovers from what an operation emits: a `SETCURSOR` is emitted as the `SETDDRAM` of its
address (R77). -/
def recovered : Instr → Instr
  | .setcursor row col => .setddram (((if row = 0 then 0 else 64) + col) % 128)
  | .init => .init
  | .clear => .clear
  | .home => .home
  | .entry dir shift => .entry dir shift
  | .dispctl on cursor blink => .dispctl on cursor blink
  | .funcset width lines font => .funcset width lines font
  | .setddram addr => .setddram addr
  | .write ch => .write ch
  | .detach => .detach
  | .nibble n rs => .nibble n rs
  | .byte v rs => .byte v rs
  | .wait t => .wait t

/-- The opcode-table word of an instruction, as (bits in whole bytes, word): the 9-bit word of the command rows,
the 5-bit word of NIBBLE; INIT, DETACH, BYTE and WAIT have no single pattern (R80). -/
def encodeTableWord (i : Instr) : Option (Nat × Nat) :=
  match i with
  | .nibble n rs => some (8, rs <<< 4 ||| n)
  | _ =>
    match encodeCode i with
    | some (rs, c) => some (16, rs.toNat <<< 8 ||| c.toNat)
    | none => none

/-- The three ExpanderBytes of a nibble (R71). -/
def encodeNibble (c : Cfg) (n : Nibble) (rs : Bool) : List Byte :=
  [Machine.fmt c n rs false, Machine.fmt c n rs true, Machine.fmt c n rs false]

/-- The six ExpanderBytes of a byte, high nibble first (R71). -/
def encodeByte (c : Cfg) (v : Byte) (rs : Bool) : List Byte :=
  encodeNibble c (Machine.highNibble v) rs ++ encodeNibble c (Machine.lowNibble v) rs

/-- The ExpanderBytes an instruction sends when no send fails (R71, R72, R128). -/
def encodeSends (c : Cfg) (i : Instr) : List Byte :=
  match i with
  | .init =>
    encodeNibble c 0x3#4 false ++ encodeNibble c 0x3#4 false ++ encodeNibble c 0x3#4 false ++
      encodeNibble c 0x2#4 false ++ encodeByte c 0x28#8 false ++ encodeByte c 0x08#8 false ++
      encodeByte c 0x01#8 false ++ encodeByte c 0x06#8 false ++ encodeByte c 0x0C#8 false
  | .nibble n rs => encodeNibble c (BitVec.ofNat 4 n) (decide (rs = 1))
  | .byte v rs => encodeByte c (BitVec.ofNat 8 v) (decide (rs = 1))
  | _ =>
    match encodeCode i with
    | some (rs, v) => encodeByte c v rs
    | none => []

end Sys2Proof
end

