-- ==== Sys2Proof/Machine/State.lean ====
section
/-! DEFINITION. The state of the machine as plain data: the record `st` (10_state.md R18), the configuration
registers (R27), the expander's port (R30), the reference observer of the controller (20_memory.md R55 to R60),
and the model's own fields for the host's offers, the bus oracle and the observation; the reasons a step can
stop; the state after reset (R33). -/

namespace Sys2Proof.Machine

/-- `st.life` (R20). -/
inductive Life where
  | reset
  | initializing
  | ready
  | failed
  | stopped
  deriving DecidableEq, Repr

/-- `st.status` (R23); its numeric code is `Status.code`. -/
inductive Status where
  | ok
  | busError
  | initError
  deriving DecidableEq, Repr

/-- `st.pc` (R19): the initialization step, the nibble of a byte, the sends of the nibble already issued. -/
structure Pc where
  step : Fin 9
  nib : Fin 2
  phase : Fin 4
  deriving DecidableEq, Repr

/-- `(0,0,0)` (R19). -/
def Pc.zero : Pc := { step := 0, nib := 0, phase := 0 }

/-- One entry of a running operation's remaining work: a primitive and the initialization step it belongs to,
0 outside INIT (R19, R64, 43_init_sequencer.md R116). -/
structure Micro where
  step : Fin 9
  prim : Prim
  deriving DecidableEq, Repr

/-- One event of the trace (00_scope.md R14): a send to a device with the answer it got (20_memory.md R44), or
a wait. -/
inductive Event where
  | send (dev : BitVec 7) (b : Byte) (reply : Reply)
  | wait (t : WaitName)
  deriving DecidableEq, Repr

/-- What the host offers to the block (60_exceptions.md R148): an operation with its operands; the same named by
its word of spec/opcode_table.json; or a read, which the block refuses (20_memory.md R45). -/
inductive Offer where
  | op (i : Instr)
  | word (nbits w : Nat)
  | read
  deriving DecidableEq, Repr

/-- The observer's interface mode (20_memory.md R57). -/
inductive Mode where
  | unknown
  | m8
  | m4
  deriving DecidableEq, Repr

/-- DDRAM: the cells known to have been written since the last draw of the contents, by rising address. -/
abbrev Memory := List Host.Cell

/-- The canonical form of a DDRAM: addresses strictly rising, each a 7-bit address (20_memory.md R47). What an
unlisted address reads as is no value of its own, so no entry can equal it. -/
abbrev Memory.wf (m : Memory) : Prop :=
  m.Pairwise (fun x y => x.1 < y.1) ∧ ∀ x ∈ m, x.1 < 128

/-- The reference observer of the controller (20_memory.md R55 to R60). -/
structure Ctl where
  mode : Mode
  half : Half
  /-- the high nibble held in 4-bit mode (R59) -/
  hi : Nibble
  /-- consecutive latches of nibble 0x3 with rs = 0, each followed by its T_INIT3 (R57, R58) -/
  n3 : Nat
  /-- the last send latched such a nibble and its T_INIT3 has not passed yet -/
  pend3 : Bool
  regs : Regs
  ddram : Memory
  /-- the draw that names the bytes of the unlisted cells -/
  era : Nat
  /-- the number of draws made -/
  draws : Nat
  /-- microseconds that the waits guarantee since the port last took a byte (00_scope.md R15) -/
  waited : Nat
  /-- microseconds that must pass before the port takes the next byte (70_reset_and_hazards.md R161) -/
  owed : Nat
  /-- a timing rule of R161 was broken since the last latch -/
  late : Bool
  deriving DecidableEq, Repr

/-- Reasons to stop with a fault. There is none: the block has no trap and no fault, its errors are statuses
returned to the caller (60_exceptions.md R132, R143), which the model takes as next states. -/
inductive Fault where
  deriving DecidableEq, Repr

/-- Reasons a step is refused: the run is marked refused for good (60_exceptions.md R133, D28). All are safe: no
claim about a next state holds of a refused run. -/
inductive Refusal where
  /-- Raised by an arm of `exec` whose instruction has no meaning yet; safe. -/
  | notModelled (mnemonic : String)
  /-- Raised by every operation and primitive with an operand outside its range (R65, R133); safe. -/
  | operandOutOfRange
  /-- Raised by every operation offered in a lifecycle state that does not admit it (R66, R133); safe. -/
  | notAdmitted (life : Life)
  /-- Raised by every operation and primitive when the parameter set is illegal (R8, C3); safe. -/
  | illegalConfiguration
  /-- Raised by the fetch for a read offered by the host (R45, R133); safe. -/
  | readOfBus
  /-- Raised by the fetch for a primitive offered on the command port (R63, R64); safe. -/
  | notOnPort
  /-- Raised by the fetch for a table word that no decoder accepts (R80, R81); safe. -/
  | undecodable
  deriving DecidableEq, Repr

structure State where
  /-- configuration registers (R27) -/
  cfg : Cfg
  life : Life
  /-- operation in progress with its operands, `none` when idle (R22) -/
  op : Option Instr
  pc : Pc
  status : Status
  errKind : Option BusKind
  errStep : Fin 9
  /-- the expander's output latch (R30) -/
  port : Byte
  /-- the reference observer (20_memory.md R55) -/
  ctl : Ctl
  /-- the model's own: what the running operation has still to execute -/
  rest : List Micro
  /-- the environment: the host's pending offers, oldest first -/
  offers : List Offer
  /-- the environment: what the bus does with the coming sends, where it is fixed -/
  answers : List Turn
  /-- the model's own: the number of sends made -/
  sends : Nat
  /-- the observation (00_scope.md R14), oldest event first -/
  trace : List Event
  deriving DecidableEq, Repr

/-- The controller after power-up: mode UNKNOWN, every register and cell any value (20_memory.md R57,
70_reset_and_hazards.md R157), T_PWR owed before the first send (R161). -/
def Ctl.powerUp : Ctl :=
  { mode := .unknown, half := Config.freeHalf 0, hi := Config.freeNibble 0, n3 := 0, pend3 := false,
    regs := Config.freeRegs 0, ddram := [], era := 0, draws := 1, waited := 0, owed := 50000, late := false }

/-- The machine right after power-up and attach (10_state.md R33, 70_reset_and_hazards.md R155). -/
def State.reset : State :=
  { cfg := Config.attached, life := .reset, op := none, pc := Pc.zero, status := .ok, errKind := none,
    errStep := 0, port := Config.powerUpPort, ctl := Ctl.powerUp, rest := [], offers := [], answers := [],
    sends := 0, trace := [] }

end Sys2Proof.Machine
end

