-- ==== Sys2Proof/Machine/Flags.lean ====
section
/-! DEFINITION. The block has no condition flags (10_state.md R26). The one-bit settings there are belong to the
controller, and a delivered code computes them (20_memory.md R60); and the numeric codes of the one result the
block has, its status (10_state.md R23). -/

namespace Sys2Proof.Machine

/-- The numeric code of a status (R23). -/
def Status.code : Status → Nat
  | .ok => 0
  | .busError => 1
  | .initError => 2

/-- A delivered entry-mode code sets `id` and `sh` (R60). -/
def setEntryMode (c : Byte) (r : Regs) : Regs := { r with id := c.getLsbD 1, sh := c.getLsbD 0 }

/-- A delivered display-control code sets `disp`, `cur` and `blink` (R60). -/
def setDisplayControl (c : Byte) (r : Regs) : Regs :=
  { r with disp := c.getLsbD 2, cur := c.getLsbD 1, blink := c.getLsbD 0 }

/-- A delivered function-set code is kept as `fn` (R60). -/
def setFunction (c : Byte) (r : Regs) : Regs := { r with fn := c }

/-- A delivered DDRAM-address code sets `ac` (R60). -/
def setAddress (c : Byte) (r : Regs) : Regs := { r with ac := c.setWidth 7 }

/-- Clear sets `ac` to 0 and `id` to 1 (R60). -/
def clearRegs (r : Regs) : Regs := { r with ac := 0#7, id := true }

/-- ReturnHome sets `ac` to 0 (R60). -/
def homeRegs (r : Regs) : Regs := { r with ac := 0#7 }

end Sys2Proof.Machine
end

