-- ==== Sys2Proof/Machine/Observer.lean ====
section
/-! DEFINITION. The reference observer of the controller (20_memory.md R55 to R60): DDRAM, the delivery of a
byte, the latch in each interface mode, and what a byte taken by the port and a wait do to it. -/

namespace Sys2Proof.Machine

/-! DDRAM. -/

/-- The byte a known write left in a cell, if one has reached it since the last draw of the contents. -/
def Memory.read : Memory → Nat → Option Byte
  | [], _ => none
  | (a, b) :: m, k => if a = k then some b else Memory.read m k

/-- Write one cell, keeping the addresses rising. -/
def Memory.write : Memory → Nat → Byte → Memory
  | [], k, v => [(k, v)]
  | (a, b) :: m, k, v =>
    if k < a then (k, v) :: (a, b) :: m
    else if k = a then (k, v) :: m
    else (a, b) :: Memory.write m k v

/-- Every cell 0x20, what Clear leaves (R60). -/
def Memory.blank : Memory := (List.range 128).map (fun a => (a, 0x20#8))

/-- The byte a DDRAM cell holds: the one written, else the free byte of the last draw of the contents. -/
def Ctl.cell (k : Ctl) (a : Addr) : Byte :=
  match k.ddram.read a.toNat with
  | some b => b
  | none => Config.freeCell k.era a.toNat

/-! Draws. -/

/-- Every part of the observer becomes any value (R55, R57, R60, R109). -/
def Ctl.lose (k : Ctl) : Ctl :=
  { k with mode := .unknown, half := Config.freeHalf k.draws, hi := Config.freeNibble k.draws,
           regs := Config.freeRegs k.draws, ddram := [], era := k.draws, draws := k.draws + 1 }

/-- The place in the pairing of nibbles, `half` and the held nibble `hi`, becomes any value, as after a failed command
(70_reset_and_hazards.md R165; 93_implementation_defined.md names the latched data too). DESIGN CHOICE: that these two
and nothing else are drawn (log entry 24). -/
def Ctl.drawPairing (k : Ctl) : Ctl :=
  { k with half := Config.freeHalf k.draws, hi := Config.freeNibble k.draws, draws := k.draws + 1 }

/-! Delivery of a byte. -/

/-- An address inside the line ranges 0x00..0x27 and 0x40..0x67 (R60). -/
def inLines (a : Addr) : Bool := decide (a.toNat ≤ 0x27) || (decide (0x40 ≤ a.toNat) && decide (a.toNat ≤ 0x67))

/-- The k-th of the 80 addresses of the line ranges, counted round (R60). -/
def lineCell (k : Nat) : Addr :=
  if k % 80 < 40 then BitVec.ofNat 7 (k % 80) else BitVec.ofNat 7 (k % 80 + 24)

/-- One up inside the line ranges: from 0x27 to 0x40 and from 0x67 to 0x00 (R60). -/
def nextCell (a : Addr) : Addr :=
  if a = 0x27#7 then 0x40#7 else if a = 0x67#7 then 0x00#7 else a + 1#7

/-- One down inside the line ranges (R60). Below the first cell of a line the rule states no result: a free cell
of the line ranges. -/
def prevCell (draw : Nat) (a : Addr) : Addr :=
  if a = 0x00#7 ∨ a = 0x40#7 then lineCell (Config.freePosition draw) else a - 1#7

/-- A data byte (R60): written at `ac`, which then moves by `id`; outside the line ranges the write and the new
`ac` are any value. -/
def deliverData (d : Byte) (k : Ctl) : Ctl :=
  if inLines k.regs.ac then
    { k with ddram := k.ddram.write k.regs.ac.toNat d,
             regs := { k.regs with
               ac := if k.regs.id then nextCell k.regs.ac else prevCell k.draws k.regs.ac },
             draws := k.draws + 1 }
  else
    { k with ddram := [], era := k.draws, regs := { k.regs with ac := (Config.freeRegs k.draws).ac },
             draws := k.draws + 1 }

/-- An instruction byte (R60). Clear and ReturnHome owe T_CLR before the next send (70_reset_and_hazards.md
R161). A function set with the 8-bit bit in 4-bit mode loses the observer (42_command_layer.md R109), and so does every
code that no operation generates (30_encoding.md R75), which 93_implementation_defined.md says are any value: 0x03 and
the function sets whose bits 1..0 are not 00 among them (DESIGN CHOICE, log entry 14). -/
def deliverCode (c : Byte) (k : Ctl) : Ctl :=
  if c = 0x01#8 then
    { k with ddram := Memory.blank, regs := clearRegs k.regs, owed := WaitName.tCLR.micros }
  else if c = 0x02#8 then
    { k with regs := homeRegs k.regs, owed := WaitName.tCLR.micros }
  else if c &&& 0xFC#8 = 0x04#8 then { k with regs := setEntryMode c k.regs }
  else if c &&& 0xF8#8 = 0x08#8 then { k with regs := setDisplayControl c k.regs }
  else if c &&& 0xE0#8 = 0x20#8 then
    if c &&& 0x03#8 ≠ 0x00#8 ∨ k.mode = .m4 ∧ c.getLsbD 4 then k.lose else { k with regs := setFunction c k.regs }
  else if c.getLsbD 7 then { k with regs := setAddress c k.regs }
  else k.lose

/-- A delivered byte goes to the data register (rs = 1) or the instruction register (R59). -/
def deliver (rs : Bool) (c : Byte) (k : Ctl) : Ctl :=
  if rs then deliverData c k else deliverCode c k

/-! The latch. -/

/-- A latch in 4-bit mode: the high nibble is held, the low one completes the byte (R59). -/
def latchM4 (n : Nibble) (rs : Bool) (k : Ctl) : Ctl :=
  match k.half with
  | .hi => { k with hi := n, half := .lo }
  | .lo => deliver rs (joinNibbles k.hi n) { k with half := .hi }

/-- A latch in 8-bit mode: one whole byte whose low nibble, the undriven D3..D0, is free; nibble 0x2 on the
instruction path switches to 4-bit mode (R58). -/
def latchM8 (n : Nibble) (rs : Bool) (k : Ctl) : Ctl :=
  let k1 := deliver rs (joinNibbles n (Config.freeNibble k.draws)) { k with draws := k.draws + 1 }
  if n = 0x2#4 ∧ rs = false then { k1 with mode := .m4, half := .hi } else k1

/-- Count a latch towards the three of nibble 0x3 with rs = 0 that force 8-bit mode (R57, R58). -/
def count3 (n : Nibble) (rs : Bool) (k : Ctl) : Ctl :=
  if n = 0x3#4 ∧ rs = false then { k with pend3 := true } else { k with n3 := 0, pend3 := false }

/-- A latch of nibble `n` with register select `rs` (R57, R58, R59). -/
def latch (n : Nibble) (rs : Bool) (k : Ctl) : Ctl :=
  match k.mode with
  | .unknown => count3 n rs k.lose
  | .m8 => count3 n rs (latchM8 n rs k)
  | .m4 => count3 n rs (latchM4 n rs k)

/-! What the port and the waits do. -/

/-- A new byte reaches the port: a time that R161 demands has not passed. -/
def tooEarly (c : Cfg) (p q : Byte) (k : Ctl) : Bool :=
  decide (k.waited < k.owed) ||
  ((p.getLsbD c.enBit != q.getLsbD c.enBit) && decide (k.waited < WaitName.tEP.micros))

/-- The time starts again at a byte the port takes; a latch of 0x3 whose T_INIT3 had not passed no longer counts
(R58, R161). -/
def Ctl.restart (late : Bool) (k : Ctl) : Ctl :=
  { k with n3 := if k.pend3 then 0 else k.n3, pend3 := false, waited := 0, owed := 0, late := late }

/-- The port changes from `p` to `q`: a falling edge of E latches the nibble and the register select of `q`, any
other pair latches nothing (R56). After a broken timing rule the latch leaves any state, the count of 0x3 latches among
it (R55). DESIGN CHOICE: mode UNKNOWN stands for any mode (log entry 13), and the next time starts unbroken (log
entry 10). -/
def Ctl.observe (c : Cfg) (p q : Byte) (k : Ctl) : Ctl :=
  let late := k.late || tooEarly c p q k
  let k1 := k.restart late
  if p.getLsbD c.enBit && !q.getLsbD c.enBit then
    if late then { k1.lose with n3 := Config.freeCount k1.draws, late := false }
    else latch (highNibble q) (q.getLsbD c.rsBit) k1
  else k1

/-- A wait passes: its lower bound is guaranteed (00_scope.md R15); the third latch of 0x3 followed by its T_INIT3
forces 8-bit mode from any state (R58). -/
def Ctl.passed (t : WaitName) (k : Ctl) : Ctl :=
  let w := k.waited + t.micros
  if k.pend3 ∧ WaitName.tINIT3.micros ≤ w then
    { k with waited := w, pend3 := false, n3 := k.n3 + 1,
             mode := if 3 ≤ k.n3 + 1 then .m8 else k.mode }
  else { k with waited := w }

end Sys2Proof.Machine
end

