-- ==== Sys2Proof/Machine/Ops.lean ====
section
/-! DEFINITION. The named operations of the block: the send (20_memory.md R44) and the wait (00_scope.md R15),
how an operation starts and ends (60_exceptions.md R134, R135), the one operation that raises an error (R136,
R139), the primitives (41_protocol_encoder.md R91, R95, R98) and the running of an operation's body. -/

namespace Sys2Proof

namespace Machine

/-! The bus. -/

/-- What the bus does with the j-th coming send: what the environment has fixed, else a free value (R13). -/
def State.turnAt (s : State) (j : Nat) : Turn :=
  match s.answers[j]? with
  | some t => t
  | none => Config.busTurn (s.sends + j)

end Machine

/-- The answer the block sees (20_memory.md R44). -/
def Turn.reply : Turn → Reply
  | .ok => .ok
  | .error k _ => .error k

/-- Whether the byte reached the port: always when the send succeeds; when it fails, either (60_exceptions.md
R140). -/
def Turn.lands : Turn → Bool
  | .ok => true
  | .error _ landed => landed

namespace Machine

/-- One send has been answered. -/
def State.answered (s : State) : State := { s with answers := s.answers.tail, sends := s.sends + 1 }

/-- The port takes byte `b` (20_memory.md R43) and the controller sees the change (R56). -/
def State.portTakes (b : Byte) (s : State) : State :=
  { s with port := b, ctl := s.ctl.observe s.cfg s.port b }

/-- One event more in the trace (00_scope.md R14). -/
def State.emit (e : Event) (s : State) : State := { s with trace := s.trace ++ [e] }

/-- `MemWrite(DEV_ADDR, 1, b)` (R44): the state after the send. The event is emitted whatever the answer. -/
def State.sent (b : Byte) (s : State) : State :=
  if (s.turnAt 0).lands then
    (s.answered.portTakes b).emit (.send s.cfg.devAddr b (s.turnAt 0).reply)
  else s.answered.emit (.send s.cfg.devAddr b (s.turnAt 0).reply)

/-- `Wait(T)` (00_scope.md R15, R98): the event, and at least T passes. -/
def State.waits (t : WaitName) (s : State) : State := { s.emit (.wait t) with ctl := s.ctl.passed t }

/-! Places of the sequencer. -/

/-- `st.pc.phase <- k` (R91). -/
def State.setPhase (k : Fin 4) (s : State) : State := { s with pc := { s.pc with phase := k } }

/-- `st.pc.nib <- k`, at the start of that nibble (R95). -/
def State.setNib (k : Fin 2) (s : State) : State := { s with pc := { s.pc with nib := k, phase := 0 } }

/-- The pc when the sequencer comes to a primitive: the step of INIT it belongs to (R116) and, for a transfer, no send of
it issued (R19). A wait writes neither `nib` nor `phase` (41_protocol_encoder.md R98): they stay where the last send left
them. DEDUCED: that `phase` is 0 again before the first send of a raw nibble (log entry 6). -/
def Micro.place (m : Micro) (pc : Pc) : Pc :=
  match m.prim with
  | .wait _ => { pc with step := m.step }
  | .nibble _ _ => { step := m.step, nib := 0, phase := 0 }
  | .byte _ _ => { step := m.step, nib := 0, phase := 0 }

/-- The sequencer comes to a primitive of the running operation. -/
def State.enter (m : Micro) (rest : List Micro) (s : State) : State :=
  { s with pc := m.place s.pc, rest := rest }

/-! Start, normal end and error of an operation. -/

/-- An admitted operation starts (60_exceptions.md R134); INIT also sets INITIALIZING (43_init_sequencer.md
R117). -/
def State.start (i : Instr) (body : List Micro) (s : State) : State :=
  { s with op := some i, pc := Pc.zero, rest := body,
           life := if i = .init then .initializing else s.life }

/-- The lifecycle state an operation ends in when nothing failed (R135): INIT ends READY, DETACH STOPPED. -/
def lifeAtEnd (op : Option Instr) (life : Life) : Life :=
  if op = some .init then .ready else if op = some .detach then .stopped else life

/-- Normal end (60_exceptions.md R135). -/
def State.finish (s : State) : State :=
  { s with life := lifeAtEnd s.op s.life, status := .ok, op := none, pc := Pc.zero, rest := [] }

/-- `raise BusError(kind)` outside INIT (R136); the pairing of nibbles at the observer becomes any
value (70_reset_and_hazards.md R165, log entry 24). -/
def State.raiseBus (kind : BusKind) (s : State) : State :=
  { s with errKind := some kind, status := .busError, op := none, pc := Pc.zero, rest := [],
           ctl := s.ctl.drawPairing }

/-- `raise InitError(st.pc.step, kind)` inside INIT (R139). -/
def State.raiseInit (kind : BusKind) (s : State) : State :=
  { s with errStep := s.pc.step, errKind := some kind, status := .initError, life := .failed, op := none,
           pc := Pc.zero, rest := [] }

/-- Taking an error: the one way an operation ends before its end (R136, R139, R143). There is no return from it:
the block is idle, or FAILED for good (R144). -/
def State.raise (kind : BusKind) (s : State) : State :=
  if s.op = some .init then s.raiseInit kind else s.raiseBus kind

/-! The primitives. -/

/-- One statement of a primitive's pseudocode: `try MemWrite(fmt(n, rs, en))` and then `st.pc.phase <- phase`;
`Wait(T)`; `st.pc.nib <- k`. -/
inductive Act where
  | send (n : Nibble) (rs en : Bool) (phase : Fin 4)
  | wait (t : WaitName)
  | nib (k : Fin 2)
  deriving DecidableEq, Repr

/-- Where a run of statements comes out: it goes on, or an error has ended the operation (`try`, 00_scope.md
R10). -/
inductive Run where
  | going (s : State)
  | ended (s : State)
  deriving DecidableEq, Repr

/-- The state a run comes out in. -/
def Run.state : Run → State
  | .going s => s
  | .ended s => s

/-- Statements in order; the first failing send raises its error and nothing after it runs (R143). -/
def runActs : List Act → State → Run
  | [], s => .going s
  | .send n rs en phase :: acts, s =>
    match (s.turnAt 0).reply with
    | .ok => runActs acts ((s.sent (fmt s.cfg n rs en)).setPhase phase)
    | .error kind => .ended ((s.sent (fmt s.cfg n rs en)).raise kind)
  | .wait t :: acts, s => runActs acts (s.waits t)
  | .nib k :: acts, s => runActs acts (s.setNib k)

/-- `NIBBLE n, rs` (R91). -/
def nibbleActs (n : Nibble) (rs : Bool) : List Act :=
  [.send n rs false 1, .wait .tEP, .send n rs true 2, .wait .tEP, .send n rs false 3]

/-- `BYTE v, rs` (R95): the high nibble first. -/
def byteActs (v : Byte) (rs : Bool) : List Act :=
  (.nib 0 :: nibbleActs (highNibble v) rs) ++ (.nib 1 :: nibbleActs (lowNibble v) rs)

/-- The statements of a primitive (R91, R95, R98). -/
def Prim.acts : Prim → List Act
  | .nibble n rs => nibbleActs n rs
  | .byte v rs => byteActs v rs
  | .wait t => [.wait t]

/-- A primitive runs. -/
def runPrim (p : Prim) (s : State) : Run := runActs (Prim.acts p) s

/-- The rest of an operation runs, each primitive in turn, to its normal end or to the first error. -/
def runMicros : List Micro → State → State
  | [], s => s.finish
  | m :: ms, s =>
    match runPrim m.prim (s.enter m ms) with
    | .going t => runMicros ms t
    | .ended t => t

/-! Admission. -/

/-- The port blocks while an operation runs: the offer waits until that one has ended (10_state.md R22). -/
def State.drain (s : State) : State :=
  match s.op with
  | none => s
  | some _ => runMicros s.rest s

/-- The lifecycle state an operation is admitted in (30_encoding.md R66). -/
def admittedIn (i : Instr) : Life := if i = .init then .reset else .ready

/-- Why an offered operation is refused, if it is (60_exceptions.md R133): an operand out of range (R65), an
illegal parameter set (R8), the wrong lifecycle state (R66). -/
def refusal? (i : Instr) (s : State) : Option Refusal :=
  if i.wellFormed = false then some .operandOutOfRange
  else if s.cfg.legal = false then some .illegalConfiguration
  else if s.life = admittedIn i then none
  else some (.notAdmitted s.life)

/-- An operation of the command port with the body `body`: it waits for the running one, is admitted or refused,
starts, runs and ends (R22, R66, R134, R135). -/
def runOperation (i : Instr) (body : List Micro) (s : State) : Host.Outcome State Fault Refusal :=
  match refusal? i s.drain with
  | some r => .refused r
  | none => .next (runMicros body (s.drain.start i body))

/-- A primitive as an instruction: refused with an operand out of range or an illegal parameter set (R65, R8), it
runs inside whatever operation is in progress, whose error rule applies (R91, R136, R139). -/
def runPrimitive (i : Instr) (p : Prim) (s : State) : Host.Outcome State Fault Refusal :=
  if i.wellFormed = false then .refused .operandOutOfRange
  else if s.cfg.legal = false then .refused .illegalConfiguration
  else .next (runPrim p s).state

/-- The body of a command: one BYTE transfer of its code (42_command_layer.md R100). -/
def transfer (rs : Bool) (code : Byte) : List Micro := [{ step := 0, prim := .byte code rs }]

/-- The body of a command with a post-delay (42_command_layer.md R102, R105). -/
def transferThenWait (rs : Bool) (code : Byte) (t : WaitName) : List Micro :=
  [{ step := 0, prim := .byte code rs }, { step := 0, prim := .wait t }]

/-! The host's side of the environment. -/

/-- Attach (70_reset_and_hazards.md R155): the configuration is bound and every field of `st` takes its reset
value; the port, the controller, the bus and the observation are the environment's and stay. DESIGN CHOICE: it does so
in every state. R28 asks for a detach before a new attach and gives no outcome without one (log entry 20). -/
def State.attach (c : Cfg) (s : State) : State :=
  { s with cfg := c, life := .reset, op := none, pc := Pc.zero, status := .ok, errKind := none, errStep := 0,
           rest := [] }

end Machine

end Sys2Proof
end

