-- ==== Sys2Proof/Machine/Commands.lean ====
section
/-! DEFINITION. The meanings of the command layer (42_command_layer.md): each command is one byte transfer of a
fixed code on the instruction or the data path (R100), CLEAR and HOME with their post-delay (R105). -/

namespace Sys2Proof.Machine

/-- `CLEAR` (R101, R102). -/
def execClear (s : State) : Host.Outcome State Fault Refusal :=
  runOperation .clear (transferThenWait false codeClear .tCLR) s

/-- `HOME` (R103, R102). -/
def execHome (s : State) : Host.Outcome State Fault Refusal :=
  runOperation .home (transferThenWait false codeHome .tCLR) s

/-- `ENTRY dir, shift` (R104). -/
def execEntry (dir shift : Nat) (s : State) : Host.Outcome State Fault Refusal :=
  runOperation (.entry dir shift) (transfer false (codeEntry dir shift)) s

/-- `DISPCTL on, cursor, blink` (R106). -/
def execDispctl (on cursor blink : Nat) (s : State) : Host.Outcome State Fault Refusal :=
  runOperation (.dispctl on cursor blink) (transfer false (codeDispctl on cursor blink)) s

/-- `FUNCSET width, lines, font` (R108); width = 1 is admitted and encoded like any other (R109). -/
def execFuncset (width lines font : Nat) (s : State) : Host.Outcome State Fault Refusal :=
  runOperation (.funcset width lines font) (transfer false (codeFuncset width lines font)) s

/-- `SETDDRAM addr` (R110). -/
def execSetddram (addr : Nat) (s : State) : Host.Outcome State Fault Refusal :=
  runOperation (.setddram addr) (transfer false (codeSetddram (BitVec.ofNat 7 addr))) s

/-- `WRITE ch` (R111), on the data path. -/
def execWrite (ch : Nat) (s : State) : Host.Outcome State Fault Refusal :=
  runOperation (.write ch) (transfer true (BitVec.ofNat 8 ch)) s

/-- `SETCURSOR row, col` (R112): the column is not checked against LINE_WIDTH (R48, R114). -/
def execSetcursor (row col : Nat) (s : State) : Host.Outcome State Fault Refusal :=
  runOperation (.setcursor row col) (transfer false (codeSetcursor row col)) s

end Sys2Proof.Machine
end

