-- ==== Sys2Proof/Machine/Lifecycle.lean ====
section
/-! DEFINITION. The meanings of INIT, the initialization sequencer (43_init_sequencer.md), and DETACH
(60_exceptions.md R147). -/

namespace Sys2Proof.Machine

/-- The eight steps of INIT in order (R116 to R128). -/
def initBody : List Micro :=
  [ { step := 1, prim := .wait .tPWR },
    { step := 2, prim := .nibble 0x3#4 false }, { step := 2, prim := .wait .tINIT3 },
    { step := 2, prim := .nibble 0x3#4 false }, { step := 2, prim := .wait .tINIT3 },
    { step := 2, prim := .nibble 0x3#4 false }, { step := 2, prim := .wait .tINIT3 },
    { step := 3, prim := .nibble 0x2#4 false },
    { step := 4, prim := .byte (codeFuncset 0 1 0) false },
    { step := 5, prim := .byte (codeDispctl 0 0 0) false },
    { step := 6, prim := .byte codeClear false }, { step := 6, prim := .wait .tCLR },
    { step := 7, prim := .byte (codeEntry 1 0) false },
    { step := 8, prim := .byte (codeDispctl 1 0 0) false } ]

/-- `INIT` (R116): admitted in RESET; ends READY (R129), or FAILED at the first failing send (R130, R139). -/
def execInit (s : State) : Host.Outcome State Fault Refusal := runOperation .init initBody s

/-- `DETACH` (R147): admitted in READY, no event, ends STOPPED. -/
def execDetach (s : State) : Host.Outcome State Fault Refusal := runOperation .detach [] s

end Sys2Proof.Machine
end

