-- ==== Sys2Proof/Machine/Primitives.lean ====
section
/-! DEFINITION. The meanings of the primitives of the protocol encoder (41_protocol_encoder.md). -/

namespace Sys2Proof.Machine

/-- `NIBBLE n, rs` (R91 to R94): one nibble with one enable pulse. -/
def execNibble (n rs : Nat) (s : State) : Host.Outcome State Fault Refusal :=
  runPrimitive (.nibble n rs) (.nibble (BitVec.ofNat 4 n) (decide (rs = 1))) s

/-- `BYTE v, rs` (R95, R96): one byte as two nibbles, high nibble first. -/
def execByte (v rs : Nat) (s : State) : Host.Outcome State Fault Refusal :=
  runPrimitive (.byte v rs) (.byte (BitVec.ofNat 8 v) (decide (rs = 1))) s

/-- `WAIT T` (R98): a lower-bound delay; it cannot fail. -/
def execWait (t : WaitName) (s : State) : Host.Outcome State Fault Refusal :=
  runPrimitive (.wait t) (.wait t) s

end Sys2Proof.Machine
end

