-- ==== Sys2Proof/Machine/Dispatch.lean ====
section
/-! DEFINITION. The meaning of every instruction: one arm per constructor, one direct call each. -/

namespace Sys2Proof.Machine

def exec (i : Instr) (s : State) : Host.Outcome State Fault Refusal :=
  match i with
  | .init => Sys2Proof.Machine.execInit s
  | .clear => Sys2Proof.Machine.execClear s
  | .home => Sys2Proof.Machine.execHome s
  | .entry dir shift => Sys2Proof.Machine.execEntry dir shift s
  | .dispctl on cursor blink => Sys2Proof.Machine.execDispctl on cursor blink s
  | .funcset width lines font => Sys2Proof.Machine.execFuncset width lines font s
  | .setddram addr => Sys2Proof.Machine.execSetddram addr s
  | .write ch => Sys2Proof.Machine.execWrite ch s
  | .setcursor row col => Sys2Proof.Machine.execSetcursor row col s
  | .detach => Sys2Proof.Machine.execDetach s
  | .nibble n rs => Sys2Proof.Machine.execNibble n rs s
  | .byte v rs => Sys2Proof.Machine.execByte v rs s
  | .wait t => Sys2Proof.Machine.execWait t s

end Sys2Proof.Machine
end

