-- ==== Sys2Proof/Machine/Fetch.lean ====
section
/-! DEFINITION. Where the sequencer takes its next instruction from: the rest of the running operation first
(30_encoding.md R64, 10_state.md R22), then the host's offers on the command port (R63, 60_exceptions.md R148). -/

namespace Sys2Proof.Machine

/-- What a fetch finds. -/
inductive Fetched where
  /-- Nothing runs and nothing is offered: the block is idle (R22). -/
  | idle
  /-- The running operation has no primitive left: its normal end is due (60_exceptions.md R135). -/
  | due
  /-- Instruction `i` runs in state `s`. -/
  | run (i : Instr) (s : State)
  /-- The offer is refused (60_exceptions.md R133). -/
  | refuse (r : Refusal)
  deriving DecidableEq, Repr

/-- An operation offered on the port: a primitive is not one (R63, R64). -/
def offered (i : Instr) (s : State) : Fetched := if i.onPort then .run i s else .refuse .notOnPort

/-- The host's oldest offer is taken (R148): a read is refused (20_memory.md R45), a table word is decoded
(30_encoding.md R80, R81). -/
def takeOffer (o : Offer) (s : State) : Fetched :=
  match o with
  | .read => .refuse .readOfBus
  | .op i => offered i s
  | .word nbits w =>
    match decodeTableWord nbits w with
    | some i => offered i s
    | none => .refuse .undecodable

/-- The next instruction, with the state it runs in. -/
def fetch (s : State) : Fetched :=
  match s.rest with
  | m :: ms => .run m.prim.toInstr (s.enter m ms)
  | [] =>
    match s.op with
    | some _ => .due
    | none =>
      match s.offers with
      | [] => .idle
      | o :: os => takeOffer o { s with offers := os }

/-- The state in which the next step fetches and runs the instruction of a table word: a primitive stands as the
rest of the running operation, a command is the oldest offer of an idle block that admits it; a word no decoder
accepts is offered as it is. -/
def placeWord (s : State) (nbits w : Nat) : State :=
  match decodeTableWord nbits w with
  | some (.nibble n rs) =>
    { s with rest := [{ step := 0, prim := .nibble (BitVec.ofNat 4 n) (decide (rs = 1)) }] }
  | some i =>
    { s with offers := .word nbits w :: s.offers, rest := [], op := none, life := admittedIn i }
  | none => { s with offers := .word nbits w :: s.offers, rest := [], op := none }

end Sys2Proof.Machine
end

