-- ==== Sys2Proof/Machine/Step.lean ====
section
/-! DEFINITION. One step of the machine: fetch, then run the instruction fetched. -/

namespace Sys2Proof.Machine

/-- One step: the next primitive of the running operation, its normal end, the host's oldest offer run whole, or
nothing when the block is idle (10_state.md R22). -/
def step (s : State) : Host.Outcome State Fault Refusal :=
  match fetch s with
  | .idle => .next s
  | .due => .next s.finish
  | .run i t => exec i t
  | .refuse r => .refused r

/-- `s` with the instruction of the table word `w` placed where the next step fetches it. -/
def State.withFetchWord (s : State) (nbits w : Nat) : State := placeWord s nbits w

end Sys2Proof.Machine
end

