-- ==== Sys2Proof/Machine/Observation.lean ====
section
/-! DEFINITION. What a reader takes from a trace (00_scope.md R14): the bytes sent, the counts of 41_protocol_encoder.md
R96, the guaranteed time of 70_reset_and_hazards.md R169; and what the block assumes of the controller (10_state.md
R32). -/

namespace Sys2Proof.Machine

/-- The byte of a send. -/
def Event.byte? : Event → Option Byte
  | .send _ b _ => some b
  | .wait _ => none

/-- The microseconds an event guarantees: the lower bound of a wait; a send has some positive duration with no
bound (R15). -/
def Event.micros : Event → Nat
  | .send _ _ _ => 0
  | .wait t => t.micros

/-- The bytes sent, in order. -/
def bytesOf (tr : List Event) : List Byte := tr.filterMap Event.byte?

/-- The number of sends (R96). -/
def sendCount (tr : List Event) : Nat := (bytesOf tr).length

/-- The number of waits of one name (R96, R128). -/
def waitCount (t : WaitName) (tr : List Event) : Nat := tr.count (.wait t)

/-- The minimum wait total in microseconds (R169). -/
def waitTotal (tr : List Event) : Nat := (tr.map Event.micros).sum

/-- The block assumes a controller in 4-bit mode: from step 3 of INIT on, and in READY (R32). DESIGN CHOICE: it assumes
nothing in RESET, FAILED and STOPPED, which the rule does not name (log entry 26). -/
def assumesFourBit (s : State) : Bool :=
  match s.life with
  | .initializing => decide (3 ≤ s.pc.step)
  | .ready => true
  | .reset => false
  | .failed => false
  | .stopped => false

end Sys2Proof.Machine
end

