-- ==== Sys2Proof/Safety.lean ====
section
/-! DEFINITION. The terms the claims use: the traces the spec writes out, what a fault-free bus is (00_scope.md
R13), when the block is idle, when the controller is in step with it, and the invariant of the machine. -/

namespace Sys2Proof.Machine

/-! Traces the spec writes out. -/

/-- A send answered `ok`. -/
def sendOk (c : Cfg) (b : Byte) : Event := .send c.devAddr b .ok

/-- The fault-free trace of `NIBBLE n, rs`: S W S W S with E low, high, low (41_protocol_encoder.md R91). -/
def nibbleTrace (c : Cfg) (n : Nibble) (rs : Bool) : List Event :=
  [sendOk c (fmt c n rs false), .wait .tEP, sendOk c (fmt c n rs true), .wait .tEP,
    sendOk c (fmt c n rs false)]

/-- The fault-free trace of `BYTE v, rs`: S W S W S S W S W S (41_protocol_encoder.md R95, R96). -/
def byteTrace (c : Cfg) (v : Byte) (rs : Bool) : List Event :=
  nibbleTrace c (v.extractLsb' 4 4) rs ++ nibbleTrace c (v.extractLsb' 0 4) rs

/-- The fault-free trace of INIT, step by step (43_init_sequencer.md R128). -/
def initTrace (c : Cfg) : List Event :=
  [.wait .tPWR] ++
  nibbleTrace c 0x3#4 false ++ [.wait .tINIT3] ++
  nibbleTrace c 0x3#4 false ++ [.wait .tINIT3] ++
  nibbleTrace c 0x3#4 false ++ [.wait .tINIT3] ++
  nibbleTrace c 0x2#4 false ++
  byteTrace c 0x28#8 false ++
  byteTrace c 0x08#8 false ++
  byteTrace c 0x01#8 false ++ [.wait .tCLR] ++
  byteTrace c 0x06#8 false ++
  byteTrace c 0x0C#8 false

/-- A fault-free trace cut at its send number `k` (counted from 0), which fails with `kind`: every event before it,
then that send with its answer, and nothing after it (60_exceptions.md R143). -/
def cutAt (kind : BusKind) : Nat → List Event → List Event
  | _, [] => []
  | k, .wait t :: tr => .wait t :: cutAt kind k tr
  | 0, .send d b _ :: _ => [.send d b (.error kind)]
  | k + 1, .send d b r :: tr => .send d b r :: cutAt kind k tr

/-- The step of INIT that its send number `k` (counted from 0) belongs to (43_init_sequencer.md R128). -/
def initStepOf (k : Nat) : Fin 9 :=
  if k < 9 then 2 else if k < 12 then 3 else if k < 18 then 4 else if k < 24 then 5
  else if k < 30 then 6 else if k < 36 then 7 else 8

/-! The bus. -/

/-- The next `n` sends are all answered `ok` (R13). -/
def FaultFree (n : Nat) (s : State) : Prop := ∀ j, j < n → (s.turnAt j).reply = .ok

/-- The coming send number `k` (counted from 0) is the first that fails, with `kind`. -/
def FailsFirstAt (k : Nat) (kind : BusKind) (s : State) : Prop :=
  FaultFree k s ∧ (s.turnAt k).reply = .error kind

/-! The block. -/

/-- Nothing runs, and an operation can be admitted in lifecycle state `l` (10_state.md R22, 00_scope.md R8). -/
def IdleIn (l : Life) (s : State) : Prop := s.op = none ∧ s.life = l ∧ s.cfg.legal = true

/-- The normal end of an operation that leaves the block in `l` (60_exceptions.md R135). -/
def EndedOk (l : Life) (s t : State) : Prop :=
  t.life = l ∧ t.status = .ok ∧ t.op = none ∧ t.pc = Pc.zero ∧ t.errKind = s.errKind ∧ t.errStep = s.errStep

/-- What no operation changes: the configuration (10_state.md R28) and the host's offers. -/
def KeepsHostSide (s t : State) : Prop := t.cfg = s.cfg ∧ t.offers = s.offers

/-! The controller. -/

/-- The controller is in step with the block: 4-bit mode, a high nibble expected, E low, no timing rule broken and no
time owed (20_memory.md R53, R59, 70_reset_and_hazards.md R161). -/
def InStep (s : State) : Prop :=
  s.ctl.mode = .m4 ∧ s.ctl.half = .hi ∧ s.ctl.late = false ∧ s.ctl.owed ≤ s.ctl.waited ∧
    s.port.getLsbD s.cfg.enBit = false

/-- Two states that differ at most in what stands behind the write-only bus: the port and the controller. -/
def SameBlock (s t : State) : Prop := { s with port := t.port, ctl := t.ctl } = t

/-! The invariant. -/

/-- What holds between operations, in every lifecycle state a run can reach: the block is idle at (0,0,0), INIT is never half
done, the error step names a step 2..8 exactly when INIT has failed, and the DDRAM keeps its canonical form. -/
structure Inv (s : State) : Prop where
  op_none : s.op = none
  rest_nil : s.rest = []
  pc_zero : s.pc = Pc.zero
  not_initializing : s.life ≠ .initializing
  failed_iff_status : s.life = .failed ↔ s.status = .initError
  failed_iff_step : s.life = .failed ↔ s.errStep ≠ 0
  step_from_two : s.errStep ≠ 0 → 2 ≤ s.errStep
  failed_has_kind : s.life = .failed → s.errKind ≠ none
  ddram_wf : s.ctl.ddram.wf

end Sys2Proof.Machine
end

