-- ==== Sys2Proof/Certificates/Slice0/Obligations.lean ====
section
/-! DEFINITION. The statements for the provers, from the numbered rules of the spec. Each docstring names its rule; a clause
that rests on a choice of the model names the log entry. -/

open Sys2Proof Sys2Proof.Machine

/-! What each instruction does on a fault-free bus: it completes, with this trace, this end and this port. -/

/-- R101: CLEAR in READY sends the byte 0x01 on the instruction path and then waits T_CLR. -/
def Obligations.ClearSendsCodeThenWaits : Prop :=
  ∀ s : State, IdleIn .ready s → FaultFree 6 s →
    ∃ t, exec .clear s = .next t ∧ t.trace = s.trace ++ (byteTrace s.cfg 0x01#8 false ++ [.wait .tCLR]) ∧
      EndedOk .ready s t ∧ KeepsHostSide s t ∧ t.port = fmt s.cfg 0x1#4 false false

/-- R103: HOME in READY sends the byte 0x02 on the instruction path and then waits T_CLR. -/
def Obligations.HomeSendsCodeThenWaits : Prop :=
  ∀ s : State, IdleIn .ready s → FaultFree 6 s →
    ∃ t, exec .home s = .next t ∧ t.trace = s.trace ++ (byteTrace s.cfg 0x02#8 false ++ [.wait .tCLR]) ∧
      EndedOk .ready s t ∧ KeepsHostSide s t ∧ t.port = fmt s.cfg 0x2#4 false false

/-- R104, R105: ENTRY in READY sends the code 4 + 2 dir + shift on the instruction path and nothing more. -/
def Obligations.EntrySendsItsCode : Prop :=
  ∀ (dir shift : Nat) (s : State), dir < 2 → shift < 2 → IdleIn .ready s → FaultFree 6 s →
    ∃ t, exec (.entry dir shift) s = .next t ∧
      t.trace = s.trace ++ byteTrace s.cfg (BitVec.ofNat 8 (4 + 2 * dir + shift)) false ∧
      EndedOk .ready s t ∧ KeepsHostSide s t

/-- R106, R105: DISPCTL in READY sends the code 8 + 4 on + 2 cursor + blink on the instruction path. -/
def Obligations.DispctlSendsItsCode : Prop :=
  ∀ (on cursor blink : Nat) (s : State), on < 2 → cursor < 2 → blink < 2 → IdleIn .ready s → FaultFree 6 s →
    ∃ t, exec (.dispctl on cursor blink) s = .next t ∧
      t.trace = s.trace ++ byteTrace s.cfg (BitVec.ofNat 8 (8 + 4 * on + 2 * cursor + blink)) false ∧
      EndedOk .ready s t ∧ KeepsHostSide s t

/-- R108, R109, R105: FUNCSET in READY sends the code 32 + 16 width + 8 lines + 4 font on the instruction path, width = 1
like any other value. -/
def Obligations.FuncsetSendsItsCode : Prop :=
  ∀ (width lines font : Nat) (s : State), width < 2 → lines < 2 → font < 2 → IdleIn .ready s → FaultFree 6 s →
    ∃ t, exec (.funcset width lines font) s = .next t ∧
      t.trace = s.trace ++ byteTrace s.cfg (BitVec.ofNat 8 (32 + 16 * width + 8 * lines + 4 * font)) false ∧
      EndedOk .ready s t ∧ KeepsHostSide s t

/-- R110, R105: SETDDRAM in READY sends the code 128 + addr on the instruction path. -/
def Obligations.SetddramSendsItsCode : Prop :=
  ∀ (addr : Nat) (s : State), addr < 128 → IdleIn .ready s → FaultFree 6 s →
    ∃ t, exec (.setddram addr) s = .next t ∧
      t.trace = s.trace ++ byteTrace s.cfg (BitVec.ofNat 8 (128 + addr)) false ∧
      EndedOk .ready s t ∧ KeepsHostSide s t

/-- R111, R105: WRITE in READY sends the character itself on the data path. -/
def Obligations.WriteSendsItsCharacter : Prop :=
  ∀ (ch : Nat) (s : State), ch < 256 → IdleIn .ready s → FaultFree 6 s →
    ∃ t, exec (.write ch) s = .next t ∧ t.trace = s.trace ++ byteTrace s.cfg (BitVec.ofNat 8 ch) true ∧
      EndedOk .ready s t ∧ KeepsHostSide s t

/-- R112, R47, R48: SETCURSOR in READY sends 128 + ((row's base + col) mod 128), whatever LINE_WIDTH is. -/
def Obligations.SetcursorSendsTheAddress : Prop :=
  ∀ (row col : Nat) (s : State), row < 2 → col < 256 → IdleIn .ready s → FaultFree 6 s →
    ∃ t, exec (.setcursor row col) s = .next t ∧
      t.trace = s.trace ++
        byteTrace s.cfg (BitVec.ofNat 8 (128 + ((if row = 0 then 0x00 else 0x40) + col) % 128)) false ∧
      EndedOk .ready s t ∧ KeepsHostSide s t

/-- R100, R105, R115: every command sends its code as one byte, on the data path if it is WRITE and on the instruction path
otherwise, and waits T_CLR after it if it is CLEAR or HOME and not at all otherwise. -/
def Obligations.EveryCommandIsOneByteTransfer : Prop :=
  ∀ (i : Instr) (s : State), i.isCommand = true → i.wellFormed = true → IdleIn .ready s → FaultFree 6 s →
    ∃ t rs v, exec i s = .next t ∧ encodeCode i = some (rs, v) ∧ (rs = true ↔ ∃ ch, i = .write ch) ∧
      t.trace = s.trace ++ (byteTrace s.cfg v rs ++ if i = .clear ∨ i = .home then [.wait .tCLR] else []) ∧
      EndedOk .ready s t ∧ KeepsHostSide s t

/-- R147: DETACH in READY emits nothing, ends STOPPED, leaves everything else, the port among it, as it was, and after it
every operation is refused. -/
def Obligations.DetachStopsWithoutASend : Prop :=
  ∀ s : State, IdleIn .ready s →
    ∃ t, exec .detach s = .next t ∧ t.life = .stopped ∧ t.status = .ok ∧
      t = { s with life := .stopped, status := .ok, pc := Pc.zero, rest := [] } ∧
      ∀ j, j.onPort = true → j.wellFormed = true → exec j t = .refused (.notAdmitted .stopped)

/-- R116, R118, R128, R129: INIT in RESET emits the fixed sequence of the step table, 42 sends and 33 waits, and ends
READY. -/
def Obligations.InitEmitsTheStepTable : Prop :=
  ∀ s : State, IdleIn .reset s → FaultFree 42 s →
    ∃ t, exec .init s = .next t ∧ t.trace = s.trace ++ initTrace s.cfg ∧ EndedOk .ready s t ∧
      KeepsHostSide s t ∧ t.port = fmt s.cfg 0xC#4 false false ∧ sendCount (initTrace s.cfg) = 42 ∧
      waitCount .tPWR (initTrace s.cfg) = 1 ∧ waitCount .tINIT3 (initTrace s.cfg) = 3 ∧
      waitCount .tCLR (initTrace s.cfg) = 1 ∧ waitCount .tEP (initTrace s.cfg) = 28

/-- R91: NIBBLE makes three sends with E low, high, low and a T_EP wait after the first two, inside whatever operation is in
progress, and leaves every other field of the block alone. That it runs in every lifecycle state, and with no operation in
progress, is the model's choice (log entry 19). -/
def Obligations.NibbleMakesOnePulse : Prop :=
  ∀ (n rs : Nat) (s : State), n < 16 → rs < 2 → s.cfg.legal = true → FaultFree 3 s →
    ∃ t, exec (.nibble n rs) s = .next t ∧
      t.trace = s.trace ++ nibbleTrace s.cfg (BitVec.ofNat 4 n) (decide (rs = 1)) ∧
      t.pc = { s.pc with phase := 3 } ∧ t.port = fmt s.cfg (BitVec.ofNat 4 n) (decide (rs = 1)) false ∧
      t.life = s.life ∧ t.op = s.op ∧ t.rest = s.rest ∧ t.status = s.status ∧ t.errKind = s.errKind ∧
      t.errStep = s.errStep ∧ KeepsHostSide s t

/-- R95: BYTE sends the high nibble and then the low nibble, both with the same register select. That it runs in every
lifecycle state is the model's choice (log entry 19). -/
def Obligations.ByteSendsHighNibbleFirst : Prop :=
  ∀ (v rs : Nat) (s : State), v < 256 → rs < 2 → s.cfg.legal = true → FaultFree 6 s →
    ∃ t, exec (.byte v rs) s = .next t ∧
      t.trace = s.trace ++ (nibbleTrace s.cfg (BitVec.ofNat 4 (v / 16)) (decide (rs = 1)) ++
        nibbleTrace s.cfg (BitVec.ofNat 4 (v % 16)) (decide (rs = 1))) ∧
      t.pc = { step := s.pc.step, nib := 1, phase := 3 } ∧
      t.life = s.life ∧ t.op = s.op ∧ t.rest = s.rest ∧ t.status = s.status ∧ t.errKind = s.errKind ∧
      t.errStep = s.errStep ∧ KeepsHostSide s t

/-- R98: WAIT emits its event and writes no state of the block or of the controller's registers and memory; only time
passes. That it runs in every lifecycle state is the model's choice (log entry 19). -/
def Obligations.WaitOnlyLetsTimePass : Prop :=
  ∀ (w : WaitName) (s : State), s.cfg.legal = true →
    ∃ t, exec (.wait w) s = .next t ∧ t = { s with trace := s.trace ++ [.wait w], ctl := t.ctl } ∧
      t.ctl.waited = s.ctl.waited + w.micros ∧ t.ctl.regs = s.ctl.regs ∧ ∀ a, t.ctl.cell a = s.ctl.cell a

/-- R169: the sends and the minimum wait total of every operation and primitive; of a primitive run by exec in any lifecycle
state by the model's choice (log entry 19). -/
def Obligations.MinimumDurations : Prop :=
  ∀ (i : Instr) (s : State), i.wellFormed = true → FaultFree 42 s → s.cfg.legal = true →
    (i.onPort = true → IdleIn (if i = .init then .reset else .ready) s) →
    ∃ t tr, exec i s = .next t ∧ t.trace = s.trace ++ tr ∧
      (sendCount tr, waitTotal tr) =
        match i with
        | .nibble _ _ => (3, 1000)
        | .byte _ _ => (6, 2000)
        | .clear => (6, 4000)
        | .home => (6, 4000)
        | .init => (42, 81000)
        | .detach => (0, 0)
        | .wait w => (0, w.micros)
        | _ => (6, 2000)

/-! Errors. -/

/-- R136, R113, R143: a command whose send number k fails makes no later event and ends with BUS_ERROR, still READY. -/
def Obligations.CommandEndsAtFirstFailedSend : Prop :=
  ∀ (i : Instr) (rs : Bool) (v : Byte) (k : Nat) (kind : BusKind) (s : State),
    i.wellFormed = true → encodeCode i = some (rs, v) → IdleIn .ready s → k < 6 → FailsFirstAt k kind s →
    ∃ t, exec i s = .next t ∧ t.trace = s.trace ++ cutAt kind k (byteTrace s.cfg v rs) ∧
      t.errKind = some kind ∧ t.status = .busError ∧ t.op = none ∧ t.pc = Pc.zero ∧ t.life = .ready ∧
      t.errStep = s.errStep ∧ KeepsHostSide s t

/-- R130, R139: INIT whose send number k fails makes no later event and ends FAILED with INIT_ERROR in the step that send
belongs to; after it every operation is refused. -/
def Obligations.InitFailsInTheStepOfItsSend : Prop :=
  ∀ (k : Nat) (kind : BusKind) (s : State), IdleIn .reset s → k < 42 → FailsFirstAt k kind s →
    ∃ t, exec .init s = .next t ∧ t.trace = s.trace ++ cutAt kind k (initTrace s.cfg) ∧
      t.errStep = initStepOf k ∧ t.errKind = some kind ∧ t.status = .initError ∧ t.life = .failed ∧
      t.op = none ∧ t.pc = Pc.zero ∧ KeepsHostSide s t ∧
      ∀ j, j.onPort = true → j.wellFormed = true → exec j t = .refused (.notAdmitted .failed)

/-- R96, R136, R139: a NIBBLE whose send number k + 1 fails emits k + 1 sends and k waits. That it ends with BUS_ERROR where
no operation is in progress is the model's choice (log entry 19): no rule gives that case. -/
def Obligations.FailedNibbleCountsItsEvents : Prop :=
  ∀ (n rs k : Nat) (kind : BusKind) (s : State), n < 16 → rs < 2 → s.cfg.legal = true → k < 3 →
    FailsFirstAt k kind s →
    ∃ t tr, exec (.nibble n rs) s = .next t ∧ t.trace = s.trace ++ tr ∧ sendCount tr = k + 1 ∧
      waitCount .tEP tr = k ∧ t.errKind = some kind ∧ t.op = none ∧
      t.status = if s.op = some .init then .initError else .busError

/-- R43, R140: a successful send sets the port to its byte, a failed one leaves it or sets it. -/
def Obligations.SendSetsOrKeepsThePort : Prop :=
  ∀ (b : Byte) (s : State), ((s.turnAt 0).reply = .ok → (s.sent b).port = b) ∧
    ((s.sent b).port = b ∨ (s.sent b).port = s.port)

/-- R141: when the third send of a nibble fails and does not reach the port, E stays high; of a NIBBLE run by exec (log entry
19). -/
def Obligations.FailedFallingEdgeLeavesEHigh : Prop :=
  ∀ (n rs : Nat) (kind : BusKind) (s : State), n < 16 → rs < 2 → s.cfg.legal = true → FaultFree 2 s →
    s.turnAt 2 = .error kind false →
    ∃ t, exec (.nibble n rs) s = .next t ∧ t.port.getLsbD s.cfg.enBit = true

/-- R132, R138: every admitted operation ends, with one of its statuses, whatever the bus answers. -/
def Obligations.AdmittedOperationAlwaysEnds : Prop :=
  ∀ (i : Instr) (s : State), i.onPort = true → i.wellFormed = true →
    IdleIn (if i = .init then .reset else .ready) s →
    ∃ t, exec i s = .next t ∧ t.op = none ∧ t.pc = Pc.zero ∧
      (t.status = .ok ∨ (t.status = .busError ∧ i.isCommand = true) ∨ (t.status = .initError ∧ i = .init))

/-! Admission and refusal. -/

/-- R66: INIT is admitted in RESET and every other operation in READY; in any other lifecycle state it is refused. -/
def Obligations.OperationAdmittedOnlyInItsState : Prop :=
  ∀ (i : Instr) (s : State), i.onPort = true → i.wellFormed = true → s.cfg.legal = true → s.op = none →
    (s.life = (if i = .init then .reset else .ready) → ∃ t, exec i s = .next t) ∧
    (s.life ≠ (if i = .init then .reset else .ready) → exec i s = .refused (.notAdmitted s.life))

/-- R65, R91, R95: the operand ranges; an instruction with an operand outside its range, and no other, is refused for its
operands. A column of any line width is in range. That it is so in every state, whatever the configuration and the lifecycle
state, is the model's choice: the spec gives the reasons of a refusal no order (log entry 18); so is the refusal of a
primitive run by exec (log entry 19). -/
def Obligations.OperandOutOfRangeRefused : Prop :=
  ∀ (i : Instr) (s : State), exec i s = .refused .operandOutOfRange ↔
    ¬ match i with
      | .entry dir shift => dir < 2 ∧ shift < 2
      | .dispctl on cursor blink => on < 2 ∧ cursor < 2 ∧ blink < 2
      | .funcset width lines font => width < 2 ∧ lines < 2 ∧ font < 2
      | .setddram addr => addr < 128
      | .write ch => ch < 256
      | .setcursor row col => row < 2 ∧ col < 256
      | .nibble n rs => n < 16 ∧ rs < 2
      | .byte v rs => v < 256 ∧ rs < 2
      | .init => True
      | .clear => True
      | .home => True
      | .detach => True
      | .wait _ => True

/-- R8, C3: with two equal bit positions, a position outside 0..3 or a line count other than 2 nothing runs. That the
configuration is the reason named before the lifecycle state (log entry 18), and that a primitive run by exec is refused too
(log entry 19), is the model's choice. -/
def Obligations.IllegalConfigurationRefused : Prop :=
  ∀ (i : Instr) (s : State), i.wellFormed = true → s.op = none →
    (s.cfg.rsBit = s.cfg.enBit ∨ s.cfg.rsBit = s.cfg.blBit ∨ s.cfg.enBit = s.cfg.blBit ∨
      4 ≤ s.cfg.rsBit ∨ 4 ≤ s.cfg.enBit ∨ 4 ≤ s.cfg.blBit ∨ s.cfg.lineCount ≠ 2) →
    exec i s = .refused .illegalConfiguration

/-- R45: a read offered by the host to an idle block is refused. That a primitive offered there, in range or not, is refused
under a name of its own is the model's choice (log entry 19): R63 and R64 leave it off the port. That offers stand in a queue
is log entry 7. -/
def Obligations.ReadsAndPrimitivesRefusedAtThePort : Prop :=
  ∀ (s : State) (os : List Offer), s.op = none → s.rest = [] →
    (s.offers = .read :: os → step s = .refused .readOfBus) ∧
    ∀ i, i.onPort = false → s.offers = .op i :: os → step s = .refused .notOnPort

/-- R22: an operation offered while one runs waits until that one has ended, and is then answered as by the idle block the
running operation leaves: the block that its remaining primitives and its normal end, step by step, lead to. That exec runs
the remaining primitives first, one primitive a step, is the model's choice (log entry 11). -/
def Obligations.PortBlocksWhileAnOperationRuns : Prop :=
  (∀ (i j : Instr) (s : State), i.onPort = true → s.op = some j → s.offers = [] → s.cfg.legal = true →
    ∃ u, Host.Core.run core (s.rest.length + 1) s = .next u ∧ u.op = none ∧ exec i s = exec i u) ∧
  ∀ (i : Instr) (s : State), i.onPort = true → exec i s = exec i s.drain ∧ s.drain.op = none

/-! The step and the machine as a whole. -/

/-- The model's own step (log entries 6, 7, 11): a step of an idle block takes the host's oldest offer, decodes it where it
is a word of the opcode table, and is exec of the instruction, run whole; a step of a running operation is exec of its next
primitive, with the pc where that primitive starts: a wait keeps `nib` and `phase` (R98), a transfer starts with no send
issued (R19). The queue and the words in it are log entry 7, one operation or one primitive a step log entry 11, the pc
before a raw nibble log entry 6. -/
def Obligations.StepRunsTheDecodedInstruction : Prop :=
  (∀ (s : State) (i : Instr) (os : List Offer), s.op = none → s.rest = [] → s.offers = .op i :: os →
    i.onPort = true → step s = exec i { s with offers := os }) ∧
  (∀ (s : State) (nbits w : Nat) (i : Instr) (os : List Offer), s.op = none → s.rest = [] →
    s.offers = .word nbits w :: os → decodeTableWord nbits w = some i → i.onPort = true →
    step s = exec i { s with offers := os }) ∧
  (∀ (s : State) (m : Micro) (ms : List Micro), s.rest = m :: ms →
    step s = exec m.prim.toInstr { s with
      rest := ms
      pc := match m.prim with
        | .wait _ => { s.pc with step := m.step }
        | .nibble _ _ => { step := m.step, nib := 0, phase := 0 }
        | .byte _ _ => { step := m.step, nib := 0, phase := 0 } })

/-- R33: the values after power-up and attach. The attach arguments and the port are free constants (log entries 1, 2). -/
def Obligations.ResetValues : Prop :=
  State.reset.life = .reset ∧ State.reset.op = none ∧ State.reset.pc = { step := 0, nib := 0, phase := 0 } ∧
    State.reset.status.code = 0 ∧ State.reset.errKind = none ∧ State.reset.errStep = 0 ∧
    State.reset.ctl.mode = .unknown ∧ State.reset.cfg = Config.attached ∧ State.reset.port = Config.powerUpPort

/-- R155: attach binds the configuration and puts every field of st at its reset value. That it does so in every state, one
not detached among them, and touches neither the port nor the controller is the model's choice (log entry 20). -/
def Obligations.AttachResetsTheBlock : Prop :=
  ∀ (c : Cfg) (s : State), (s.attach c).cfg = c ∧ (s.attach c).life = State.reset.life ∧
    (s.attach c).op = State.reset.op ∧ (s.attach c).pc = State.reset.pc ∧
    (s.attach c).status = State.reset.status ∧ (s.attach c).errKind = State.reset.errKind ∧
    (s.attach c).errStep = State.reset.errStep ∧ (s.attach c).port = s.port ∧ (s.attach c).ctl = s.ctl

/-- The invariant holds after reset. -/
def Obligations.InvariantHoldsAtReset : Prop := Inv State.reset

/-- Every step keeps the invariant: between operations the block is idle, INIT is never half done, INIT_ERROR, FAILED and an
error step 2..8 come together, and the DDRAM keeps its canonical form. That a whole operation is one step is log entry 11. -/
def Obligations.EveryStepKeepsTheInvariant : Prop := ∀ s t : State, Inv s → step s = .next t → Inv t

/-- R21: the lifecycle state changes only from RESET to READY or FAILED and from READY to STOPPED. -/
def Obligations.LifecycleChangesOnlyAsListed : Prop :=
  ∀ s t : State, Inv s → step s = .next t →
    t.life = s.life ∨ (s.life = .reset ∧ (t.life = .ready ∨ t.life = .failed)) ∨
      (s.life = .ready ∧ t.life = .stopped)

/-- R20, R133, R147: in FAILED and STOPPED nothing is ever sent or changed again. -/
def Obligations.NothingHappensAfterTheEnd : Prop :=
  ∀ s t : State, Inv s → s.life = .failed ∨ s.life = .stopped → step s = .next t → t = s

/-- R28: no step writes the configuration. -/
def Obligations.ConfigurationNeverChanges : Prop := ∀ s t : State, step s = .next t → t.cfg = s.cfg

/-- R28, R42, R85, R88: every send of every step goes to DEV_ADDR and carries the backlight bit BL_ON and the unused low bit
0, whatever the bus answers, and the configuration stays. -/
def Obligations.EverySendCarriesBacklightAndAddress : Prop :=
  ∀ s t : State, s.cfg.legal = true → step s = .next t →
    t.cfg = s.cfg ∧ ∃ new, t.trace = s.trace ++ new ∧ ∀ dev b r, Event.send dev b r ∈ new →
      dev = s.cfg.devAddr ∧ b.getLsbD s.cfg.blBit = s.cfg.blOn ∧
      ∀ j, j < 4 → j ≠ s.cfg.rsBit → j ≠ s.cfg.enBit → j ≠ s.cfg.blBit → b.getLsbD j = false

/-- R45, R162: nothing that stands behind the write-only bus reaches the block: two states that differ only in the port and
the controller give the same outcome but for the port and the controller. -/
def Obligations.ControllerNeverReachesTheBlock : Prop :=
  ∀ (i : Instr) (s : State) (p : Byte) (k : Ctl),
    match exec i s, exec i { s with port := p, ctl := k } with
    | .next t, .next u => SameBlock t u
    | .refused a, .refused b => a = b
    | _, _ => False

/-- Running an operation whole is running its primitives step by step (R64: operations are built from them). That a step of a
running operation is one primitive, that the list `rest` holds those left, and that a step of an idle block runs an operation
whole, so that no such running state stands between the steps of a run, are the model's choices (log entries 6, 11). -/
def Obligations.StepsOfPrimitivesAreTheOperation : Prop :=
  ∀ (s : State) (i : Instr), s.op = some i → s.offers = [] → s.cfg.legal = true →
    Host.Core.run core (s.rest.length + 1) s = .next s.drain

/-! Encodings. -/

/-- R90: the formatter's fields come back from its byte; a byte with the unused low bit 1 or another backlight bit is none of
its bytes. -/
def Obligations.FormatterIsInverted : Prop :=
  ∀ c : Cfg, c.legal = true →
    (∀ (n : Nibble) (rs en : Bool), unfmt c (fmt c n rs en) = .ok (n, rs, en) ∧
      (fmt c n rs en).extractLsb' 4 4 = n ∧ (fmt c n rs en).getLsbD c.rsBit = rs ∧
      (fmt c n rs en).getLsbD c.enBit = en ∧ (fmt c n rs en).getLsbD c.blBit = c.blOn) ∧
    ∀ (b : Byte) (j : Nat), j < 4 → j ≠ c.rsBit → j ≠ c.enBit → j ≠ c.blBit →
      b.getLsbD j = true ∨ b.getLsbD c.blBit ≠ c.blOn → unfmt c b = .error (.notFormatted b)

/-- R89: with the default positions the low nibble of an ExpanderByte is 8 BL_ON + 4 en + rs. -/
def Obligations.FormatterImageAtDefaults : Prop :=
  ∀ (c : Cfg) (n : Nibble) (rs en : Bool), c.rsBit = 0 → c.enBit = 2 → c.blBit = 3 →
    (fmt c n rs en).toNat = 16 * n.toNat + 8 * c.blOn.toNat + 4 * en.toNat + rs.toNat

/-- R80, R81: every word of the opcode table decodes to the instruction it encodes; a SETCURSOR to the SETDDRAM it is emitted
as (R77). -/
def Obligations.DecodeOfEncodeIsTheInstruction : Prop :=
  ∀ i : Instr, i.wellFormed = true → (i.isCommand = true ∨ ∃ n rs, i = .nibble n rs) →
    ∃ nbits w, encodeTableWord i = some (nbits, w) ∧ decodeTableWord nbits w = some (recovered i)

/-- R73, R81: the six bytes that a fault-free command sends decode to the command. -/
def Obligations.EmittedBytesDecodeToTheCommand : Prop :=
  ∀ (i : Instr) (s : State), i.isCommand = true → i.wellFormed = true → IdleIn .ready s → FaultFree 6 s →
    ∃ t, exec i s = .next t ∧
      decodeSends s.cfg (bytesOf (t.trace.drop s.trace.length)) = .ok [recovered i]

/-- R118, R122: the bytes of a fault-free INIT decode to the eight steps' transfers in order. -/
def Obligations.InitBytesDecodeToTheSteps : Prop :=
  ∀ s : State, IdleIn .reset s → FaultFree 42 s →
    ∃ t, exec .init s = .next t ∧ decodeInitSends s.cfg (bytesOf (t.trace.drop s.trace.length)) =
      .ok ([(0x3#4, false), (0x3#4, false), (0x3#4, false), (0x2#4, false)],
        [.funcset 0 1 0, .dispctl 0 0 0, .clear, .entry 1 0, .dispctl 1 0 0])

/-- R75: the instruction-path codes that no operation produces, and no other, are not decoded. -/
def Obligations.NotGeneratedCodesAreRefused : Prop :=
  ∀ c : Byte, decodeCode false c = .error (.notGenerated c) ↔
    c = 0x00#8 ∨ c = 0x03#8 ∨ (0x10 ≤ c.toNat ∧ c.toNat ≤ 0x1F) ∨
      (0x20 ≤ c.toNat ∧ c.toNat ≤ 0x3F ∧ c.toNat % 4 ≠ 0) ∨ (0x40 ≤ c.toNat ∧ c.toNat ≤ 0x7F)

/-- R74: the highest set bit of an instruction-path code names its command. -/
def Obligations.HighestBitNamesTheCommand : Prop :=
  ∀ (i : Instr) (c : Byte), i.wellFormed = true → encodeCode i = some (false, c) →
    2 ^ (match i with
      | .clear => 0
      | .home => 1
      | .entry _ _ => 2
      | .dispctl _ _ _ => 3
      | .funcset _ _ _ => 5
      | _ => 7) ≤ c.toNat ∧
    c.toNat < 2 ^ ((match i with
      | .clear => 0
      | .home => 1
      | .entry _ _ => 2
      | .dispctl _ _ _ => 3
      | .funcset _ _ _ => 5
      | _ => 7) + 1)

/-- R68, R80: words written out from the table of codes decode to the instructions they stand for. -/
def Obligations.WrittenWordsDecode : Prop :=
  decodeTableWord 16 0b000000001 = some .clear ∧ decodeTableWord 16 0b000000010 = some .home ∧
    decodeTableWord 16 0b000000110 = some (.entry 1 0) ∧ decodeTableWord 16 0b000001011 = some (.dispctl 0 1 1) ∧
    decodeTableWord 16 0b000101000 = some (.funcset 0 1 0) ∧ decodeTableWord 16 0b011000011 = some (.setddram 0x43) ∧
    decodeTableWord 16 0b101000001 = some (.write 0x41) ∧ decodeTableWord 8 0b10101 = some (.nibble 5 1)

/-! Frames. -/

/-- What a command leaves alone, whatever the bus answers: the configuration, the host's further offers, the lifecycle
state, the error step, every event already emitted; and the error kind unless a send fails. -/
def Obligations.CommandFrame : Prop :=
  ∀ (i : Instr) (s t : State), i.isCommand = true → s.op = none → exec i s = .next t →
    t.cfg = s.cfg ∧ t.offers = s.offers ∧ t.life = s.life ∧ t.errStep = s.errStep ∧ s.trace <+: t.trace ∧
      (t.status = .ok → t.errKind = s.errKind)

/-- What INIT leaves alone, whatever the bus answers. -/
def Obligations.InitFrame : Prop :=
  ∀ s t : State, s.op = none → exec .init s = .next t →
    t.cfg = s.cfg ∧ t.offers = s.offers ∧ s.trace <+: t.trace ∧
      (t.status = .ok → t.errKind = s.errKind ∧ t.errStep = s.errStep)

/-- R60: HOME, ENTRY, DISPCTL, FUNCSET with width 0, SETDDRAM and SETCURSOR sent to a controller in step leave every cell of
DDRAM as it was. -/
def Obligations.NonStoringCommandsKeepDdram : Prop :=
  ∀ (i : Instr) (s t : State), i.isCommand = true → i ≠ .clear → (∀ ch, i ≠ .write ch) →
    (∀ lines font, i ≠ .funcset 1 lines font) → s.op = none → InStep s → FaultFree 6 s → exec i s = .next t →
    ∀ a, t.ctl.cell a = s.ctl.cell a

/-- R60, with its parts from general knowledge (G9, log entry 16): WRITE sent to a controller in step, its address counter
inside the lines, stores the character at the address
counter and leaves every other cell as it was; the counter moves by the entry mode, up from 0x27 to 0x40 and from 0x67 to
0x00, and inside a line down by one. The rest of the registers stays. -/
def Obligations.WriteStoresAtTheAddressCounter : Prop :=
  ∀ (ch : Nat) (s : State), ch < 256 → IdleIn .ready s → InStep s → FaultFree 6 s →
    (s.ctl.regs.ac.toNat ≤ 0x27 ∨ 0x40 ≤ s.ctl.regs.ac.toNat ∧ s.ctl.regs.ac.toNat ≤ 0x67) →
    ∃ t, exec (.write ch) s = .next t ∧ t.ctl.cell s.ctl.regs.ac = BitVec.ofNat 8 ch ∧
      (∀ a, a ≠ s.ctl.regs.ac → t.ctl.cell a = s.ctl.cell a) ∧
      t.ctl.regs = { s.ctl.regs with ac := t.ctl.regs.ac } ∧
      (s.ctl.regs.id = true → t.ctl.regs.ac.toNat =
        if s.ctl.regs.ac.toNat = 0x27 then 0x40
        else if s.ctl.regs.ac.toNat = 0x67 then 0x00 else s.ctl.regs.ac.toNat + 1) ∧
      (s.ctl.regs.id = false → s.ctl.regs.ac.toNat ≠ 0x00 → s.ctl.regs.ac.toNat ≠ 0x40 →
        t.ctl.regs.ac.toNat = s.ctl.regs.ac.toNat - 1)

/-! The controller behind the bus. -/

/-- R60: CLEAR sent to a controller in step empties the display and homes the cursor. -/
def Obligations.ClearEmptiesTheDisplay : Prop :=
  ∀ s : State, IdleIn .ready s → InStep s → FaultFree 6 s →
    ∃ t, exec .clear s = .next t ∧ (∀ a, t.ctl.cell a = 0x20#8) ∧
      t.ctl.regs = { s.ctl.regs with ac := 0#7, id := true }

/-- R60: what HOME, ENTRY, DISPCTL, FUNCSET with width 0, SETDDRAM and SETCURSOR set in a controller in step, and that they
set nothing else. -/
def Obligations.SettingsReachTheController : Prop :=
  ∀ s : State, IdleIn .ready s → InStep s → FaultFree 6 s →
    (∃ t, exec .home s = .next t ∧ t.ctl.regs = { s.ctl.regs with ac := 0#7 }) ∧
    (∀ dir shift, dir < 2 → shift < 2 → ∃ t, exec (.entry dir shift) s = .next t ∧
      t.ctl.regs = { s.ctl.regs with id := decide (dir = 1), sh := decide (shift = 1) }) ∧
    (∀ on cursor blink, on < 2 → cursor < 2 → blink < 2 → ∃ t, exec (.dispctl on cursor blink) s = .next t ∧
      t.ctl.regs = { s.ctl.regs with
        disp := decide (on = 1), cur := decide (cursor = 1), blink := decide (blink = 1) }) ∧
    (∀ lines font, lines < 2 → font < 2 → ∃ t, exec (.funcset 0 lines font) s = .next t ∧
      t.ctl.regs = { s.ctl.regs with fn := BitVec.ofNat 8 (32 + 8 * lines + 4 * font) }) ∧
    (∀ addr, addr < 128 → ∃ t, exec (.setddram addr) s = .next t ∧
      t.ctl.regs = { s.ctl.regs with ac := BitVec.ofNat 7 addr }) ∧
    (∀ row col, row < 2 → col < 256 → ∃ t, exec (.setcursor row col) s = .next t ∧
      t.ctl.regs = { s.ctl.regs with ac := BitVec.ofNat 7 (((if row = 0 then 0 else 64) + col) % 128) })

/-- R109: after FUNCSET with width 1 the controller's state is any value; that mode UNKNOWN stands for any mode is the
model's choice (log entry 13). -/
def Obligations.EightBitFuncsetLosesTheController : Prop :=
  ∀ (lines font : Nat) (s : State), lines < 2 → font < 2 → IdleIn .ready s → InStep s → FaultFree 6 s →
    ∃ t, exec (.funcset 1 lines font) s = .next t ∧ t.ctl.mode = .unknown

/-- R53, R161, R163: a command other than FUNCSET with width 1, on a fault-free bus, leaves a controller in step in step:
byte pairing, E low, no timing rule broken, no time owed. -/
def Obligations.CommandsKeepTheControllerInStep : Prop :=
  ∀ (i : Instr) (s t : State), i.isCommand = true → (∀ lines font, i ≠ .funcset 1 lines font) → s.op = none →
    InStep s → FaultFree 6 s → exec i s = .next t → InStep t

/-- R57, R58, R60, R116, R129, R156, R166: INIT on a fault-free bus brings a controller in an unknown state, behind a port
holding any byte, E high among them, into step: 4-bit mode, empty display, cursor at home, entry mode up, display on, cursor
and blink off, function set 0x28. -/
def Obligations.InitBringsTheControllerIntoStep : Prop :=
  ∀ s : State, IdleIn .reset s → FaultFree 42 s → s.ctl.mode = .unknown → s.ctl.n3 = 0 → s.ctl.pend3 = false →
    s.ctl.late = false → s.ctl.owed ≤ 50000 →
    ∃ t, exec .init s = .next t ∧ InStep t ∧ (∀ a, t.ctl.cell a = 0x20#8) ∧
      t.ctl.regs = { ac := 0#7, disp := true, cur := false, blink := false, id := true, sh := false, fn := 0x28#8 }

/-- R59: a nibble sent, by exec of NIBBLE (log entry 19), to a controller in step is held as the high half of a byte and
changes nothing the controller shows. -/
def Obligations.FirstNibbleIsHeld : Prop :=
  ∀ (n rs : Nat) (s : State), n < 16 → rs < 2 → s.cfg.legal = true → InStep s → FaultFree 3 s →
    ∃ t, exec (.nibble n rs) s = .next t ∧ t.ctl.hi = BitVec.ofNat 4 n ∧ t.ctl.half = .lo ∧ t.ctl.mode = .m4 ∧
      t.ctl.regs = s.ctl.regs ∧ ∀ a, t.ctl.cell a = s.ctl.cell a

/-- R59: a byte sent, by exec of BYTE (log entry 19), to a controller in step is delivered to it once, with its register
select: the registers and the DDRAM become what `deliver` makes of them. -/
def Obligations.ByteIsDeliveredOnce : Prop :=
  ∀ (v rs : Nat) (s : State), v < 256 → rs < 2 → s.cfg.legal = true → InStep s → FaultFree 6 s →
    ∃ t, exec (.byte v rs) s = .next t ∧
      t.ctl.regs = (deliver (decide (rs = 1)) (BitVec.ofNat 8 v) s.ctl).regs ∧
      t.ctl.mode = (deliver (decide (rs = 1)) (BitVec.ofNat 8 v) s.ctl).mode ∧
      ∀ a, t.ctl.cell a = (deliver (decide (rs = 1)) (BitVec.ofNat 8 v) s.ctl).cell a

/-- R52, R56: a byte at the port that does not lower E delivers nothing to the controller. -/
def Obligations.OnlyAFallingEdgeDelivers : Prop :=
  ∀ (c : Cfg) (p q : Byte) (k : Ctl), ¬ (p.getLsbD c.enBit = true ∧ q.getLsbD c.enBit = false) →
    (k.observe c p q).mode = k.mode ∧ (k.observe c p q).half = k.half ∧ (k.observe c p q).hi = k.hi ∧
      (k.observe c p q).regs = k.regs ∧ ∀ a, (k.observe c p q).cell a = k.cell a

/-- R55, R161: a falling edge before T_EP has passed, or before T_CLR after Clear or ReturnHome, leaves the observer in any
state. That mode UNKNOWN stands for any mode is the model's choice (log entry 13), and so are the times `waited` and `owed`
that it is measured with (log entry 10). -/
def Obligations.BrokenTimingLosesTheController : Prop :=
  ∀ (c : Cfg) (p q : Byte) (k : Ctl), p.getLsbD c.enBit = true → q.getLsbD c.enBit = false →
    k.waited < 500 ∨ k.waited < k.owed → (k.observe c p q).mode = .unknown

/-- R58, R120: three nibbles 0x3 on the instruction path, each followed by T_INIT3, force 8-bit mode from any state of the
controller that has its timing kept (log entry 10) and E low, run by exec (log entry 19); the count is log entry 4. -/
def Obligations.ThreeRawNibblesForceEightBitMode : Prop :=
  ∀ s : State, s.cfg.legal = true → FaultFree 9 s → s.port.getLsbD s.cfg.enBit = false → s.ctl.late = false →
    s.ctl.owed ≤ s.ctl.waited →
    ∃ a b c d e t, exec (.nibble 3 0) s = .next a ∧ exec (.wait .tINIT3) a = .next b ∧
      exec (.nibble 3 0) b = .next c ∧ exec (.wait .tINIT3) c = .next d ∧
      exec (.nibble 3 0) d = .next e ∧ exec (.wait .tINIT3) e = .next t ∧ t.ctl.mode = .m8

/-- R107: CLEAR twice leaves the controller as CLEAR once does. -/
def Obligations.ClearIsIdempotentAtTheController : Prop :=
  ∀ s : State, IdleIn .ready s → InStep s → FaultFree 12 s →
    ∃ t u, exec .clear s = .next t ∧ exec .clear t = .next u ∧ u.ctl.regs = t.ctl.regs ∧
      (∀ a, u.ctl.cell a = t.ctl.cell a) ∧ u.ctl.mode = t.ctl.mode ∧ u.ctl.half = t.ctl.half ∧ u.port = t.port
end

