-- ==== Sys2Proof/Laws/State.lean ====
section
/-! SUPPORT. What each update of the state does to each field: one lemma per field, true by unfolding. -/

namespace Sys2Proof.Machine

@[simp] theorem Micro.place_step (m : Micro) (pc : Pc) : (m.place pc).step = m.step := by
  unfold Micro.place; split <;> rfl

@[simp] theorem State.answered_cfg (s : State) : s.answered.cfg = s.cfg := rfl
@[simp] theorem State.answered_life (s : State) : s.answered.life = s.life := rfl
@[simp] theorem State.answered_op (s : State) : s.answered.op = s.op := rfl
@[simp] theorem State.answered_pc (s : State) : s.answered.pc = s.pc := rfl
@[simp] theorem State.answered_status (s : State) : s.answered.status = s.status := rfl
@[simp] theorem State.answered_errKind (s : State) : s.answered.errKind = s.errKind := rfl
@[simp] theorem State.answered_errStep (s : State) : s.answered.errStep = s.errStep := rfl
@[simp] theorem State.answered_port (s : State) : s.answered.port = s.port := rfl
@[simp] theorem State.answered_ctl (s : State) : s.answered.ctl = s.ctl := rfl
@[simp] theorem State.answered_rest (s : State) : s.answered.rest = s.rest := rfl
@[simp] theorem State.answered_offers (s : State) : s.answered.offers = s.offers := rfl
@[simp] theorem State.answered_answers (s : State) : s.answered.answers = s.answers.tail := rfl
@[simp] theorem State.answered_sends (s : State) : s.answered.sends = s.sends + 1 := rfl
@[simp] theorem State.answered_trace (s : State) : s.answered.trace = s.trace := rfl

@[simp] theorem State.portTakes_cfg (b : Byte) (s : State) : (s.portTakes b).cfg = s.cfg := rfl
@[simp] theorem State.portTakes_life (b : Byte) (s : State) : (s.portTakes b).life = s.life := rfl
@[simp] theorem State.portTakes_op (b : Byte) (s : State) : (s.portTakes b).op = s.op := rfl
@[simp] theorem State.portTakes_pc (b : Byte) (s : State) : (s.portTakes b).pc = s.pc := rfl
@[simp] theorem State.portTakes_status (b : Byte) (s : State) : (s.portTakes b).status = s.status := rfl
@[simp] theorem State.portTakes_errKind (b : Byte) (s : State) : (s.portTakes b).errKind = s.errKind := rfl
@[simp] theorem State.portTakes_errStep (b : Byte) (s : State) : (s.portTakes b).errStep = s.errStep := rfl
@[simp] theorem State.portTakes_port (b : Byte) (s : State) : (s.portTakes b).port = b := rfl
@[simp] theorem State.portTakes_ctl (b : Byte) (s : State) : (s.portTakes b).ctl = s.ctl.observe s.cfg s.port b := rfl
@[simp] theorem State.portTakes_rest (b : Byte) (s : State) : (s.portTakes b).rest = s.rest := rfl
@[simp] theorem State.portTakes_offers (b : Byte) (s : State) : (s.portTakes b).offers = s.offers := rfl
@[simp] theorem State.portTakes_answers (b : Byte) (s : State) : (s.portTakes b).answers = s.answers := rfl
@[simp] theorem State.portTakes_sends (b : Byte) (s : State) : (s.portTakes b).sends = s.sends := rfl
@[simp] theorem State.portTakes_trace (b : Byte) (s : State) : (s.portTakes b).trace = s.trace := rfl

@[simp] theorem State.emit_cfg (e : Event) (s : State) : (s.emit e).cfg = s.cfg := rfl
@[simp] theorem State.emit_life (e : Event) (s : State) : (s.emit e).life = s.life := rfl
@[simp] theorem State.emit_op (e : Event) (s : State) : (s.emit e).op = s.op := rfl
@[simp] theorem State.emit_pc (e : Event) (s : State) : (s.emit e).pc = s.pc := rfl
@[simp] theorem State.emit_status (e : Event) (s : State) : (s.emit e).status = s.status := rfl
@[simp] theorem State.emit_errKind (e : Event) (s : State) : (s.emit e).errKind = s.errKind := rfl
@[simp] theorem State.emit_errStep (e : Event) (s : State) : (s.emit e).errStep = s.errStep := rfl
@[simp] theorem State.emit_port (e : Event) (s : State) : (s.emit e).port = s.port := rfl
@[simp] theorem State.emit_ctl (e : Event) (s : State) : (s.emit e).ctl = s.ctl := rfl
@[simp] theorem State.emit_rest (e : Event) (s : State) : (s.emit e).rest = s.rest := rfl
@[simp] theorem State.emit_offers (e : Event) (s : State) : (s.emit e).offers = s.offers := rfl
@[simp] theorem State.emit_answers (e : Event) (s : State) : (s.emit e).answers = s.answers := rfl
@[simp] theorem State.emit_sends (e : Event) (s : State) : (s.emit e).sends = s.sends := rfl
@[simp] theorem State.emit_trace (e : Event) (s : State) : (s.emit e).trace = s.trace ++ [e] := rfl

@[simp] theorem State.waits_cfg (t : WaitName) (s : State) : (s.waits t).cfg = s.cfg := rfl
@[simp] theorem State.waits_life (t : WaitName) (s : State) : (s.waits t).life = s.life := rfl
@[simp] theorem State.waits_op (t : WaitName) (s : State) : (s.waits t).op = s.op := rfl
@[simp] theorem State.waits_pc (t : WaitName) (s : State) : (s.waits t).pc = s.pc := rfl
@[simp] theorem State.waits_status (t : WaitName) (s : State) : (s.waits t).status = s.status := rfl
@[simp] theorem State.waits_errKind (t : WaitName) (s : State) : (s.waits t).errKind = s.errKind := rfl
@[simp] theorem State.waits_errStep (t : WaitName) (s : State) : (s.waits t).errStep = s.errStep := rfl
@[simp] theorem State.waits_port (t : WaitName) (s : State) : (s.waits t).port = s.port := rfl
@[simp] theorem State.waits_ctl (t : WaitName) (s : State) : (s.waits t).ctl = s.ctl.passed t := rfl
@[simp] theorem State.waits_rest (t : WaitName) (s : State) : (s.waits t).rest = s.rest := rfl
@[simp] theorem State.waits_offers (t : WaitName) (s : State) : (s.waits t).offers = s.offers := rfl
@[simp] theorem State.waits_answers (t : WaitName) (s : State) : (s.waits t).answers = s.answers := rfl
@[simp] theorem State.waits_sends (t : WaitName) (s : State) : (s.waits t).sends = s.sends := rfl
@[simp] theorem State.waits_trace (t : WaitName) (s : State) : (s.waits t).trace = s.trace ++ [.wait t] := rfl

@[simp] theorem State.setPhase_cfg (k : Fin 4) (s : State) : (s.setPhase k).cfg = s.cfg := rfl
@[simp] theorem State.setPhase_life (k : Fin 4) (s : State) : (s.setPhase k).life = s.life := rfl
@[simp] theorem State.setPhase_op (k : Fin 4) (s : State) : (s.setPhase k).op = s.op := rfl
@[simp] theorem State.setPhase_pc (k : Fin 4) (s : State) : (s.setPhase k).pc = { s.pc with phase := k } := rfl
@[simp] theorem State.setPhase_status (k : Fin 4) (s : State) : (s.setPhase k).status = s.status := rfl
@[simp] theorem State.setPhase_errKind (k : Fin 4) (s : State) : (s.setPhase k).errKind = s.errKind := rfl
@[simp] theorem State.setPhase_errStep (k : Fin 4) (s : State) : (s.setPhase k).errStep = s.errStep := rfl
@[simp] theorem State.setPhase_port (k : Fin 4) (s : State) : (s.setPhase k).port = s.port := rfl
@[simp] theorem State.setPhase_ctl (k : Fin 4) (s : State) : (s.setPhase k).ctl = s.ctl := rfl
@[simp] theorem State.setPhase_rest (k : Fin 4) (s : State) : (s.setPhase k).rest = s.rest := rfl
@[simp] theorem State.setPhase_offers (k : Fin 4) (s : State) : (s.setPhase k).offers = s.offers := rfl
@[simp] theorem State.setPhase_answers (k : Fin 4) (s : State) : (s.setPhase k).answers = s.answers := rfl
@[simp] theorem State.setPhase_sends (k : Fin 4) (s : State) : (s.setPhase k).sends = s.sends := rfl
@[simp] theorem State.setPhase_trace (k : Fin 4) (s : State) : (s.setPhase k).trace = s.trace := rfl

@[simp] theorem State.setNib_cfg (k : Fin 2) (s : State) : (s.setNib k).cfg = s.cfg := rfl
@[simp] theorem State.setNib_life (k : Fin 2) (s : State) : (s.setNib k).life = s.life := rfl
@[simp] theorem State.setNib_op (k : Fin 2) (s : State) : (s.setNib k).op = s.op := rfl
@[simp] theorem State.setNib_pc (k : Fin 2) (s : State) : (s.setNib k).pc = { s.pc with nib := k, phase := 0 } := rfl
@[simp] theorem State.setNib_status (k : Fin 2) (s : State) : (s.setNib k).status = s.status := rfl
@[simp] theorem State.setNib_errKind (k : Fin 2) (s : State) : (s.setNib k).errKind = s.errKind := rfl
@[simp] theorem State.setNib_errStep (k : Fin 2) (s : State) : (s.setNib k).errStep = s.errStep := rfl
@[simp] theorem State.setNib_port (k : Fin 2) (s : State) : (s.setNib k).port = s.port := rfl
@[simp] theorem State.setNib_ctl (k : Fin 2) (s : State) : (s.setNib k).ctl = s.ctl := rfl
@[simp] theorem State.setNib_rest (k : Fin 2) (s : State) : (s.setNib k).rest = s.rest := rfl
@[simp] theorem State.setNib_offers (k : Fin 2) (s : State) : (s.setNib k).offers = s.offers := rfl
@[simp] theorem State.setNib_answers (k : Fin 2) (s : State) : (s.setNib k).answers = s.answers := rfl
@[simp] theorem State.setNib_sends (k : Fin 2) (s : State) : (s.setNib k).sends = s.sends := rfl
@[simp] theorem State.setNib_trace (k : Fin 2) (s : State) : (s.setNib k).trace = s.trace := rfl

@[simp] theorem State.enter_cfg (m : Micro) (ms : List Micro) (s : State) : (s.enter m ms).cfg = s.cfg := rfl
@[simp] theorem State.enter_life (m : Micro) (ms : List Micro) (s : State) : (s.enter m ms).life = s.life := rfl
@[simp] theorem State.enter_op (m : Micro) (ms : List Micro) (s : State) : (s.enter m ms).op = s.op := rfl
@[simp] theorem State.enter_pc (m : Micro) (ms : List Micro) (s : State) : (s.enter m ms).pc = m.place s.pc := rfl
@[simp] theorem State.enter_status (m : Micro) (ms : List Micro) (s : State) : (s.enter m ms).status = s.status := rfl
@[simp] theorem State.enter_errKind (m : Micro) (ms : List Micro) (s : State) : (s.enter m ms).errKind = s.errKind := rfl
@[simp] theorem State.enter_errStep (m : Micro) (ms : List Micro) (s : State) : (s.enter m ms).errStep = s.errStep := rfl
@[simp] theorem State.enter_port (m : Micro) (ms : List Micro) (s : State) : (s.enter m ms).port = s.port := rfl
@[simp] theorem State.enter_ctl (m : Micro) (ms : List Micro) (s : State) : (s.enter m ms).ctl = s.ctl := rfl
@[simp] theorem State.enter_rest (m : Micro) (ms : List Micro) (s : State) : (s.enter m ms).rest = ms := rfl
@[simp] theorem State.enter_offers (m : Micro) (ms : List Micro) (s : State) : (s.enter m ms).offers = s.offers := rfl
@[simp] theorem State.enter_answers (m : Micro) (ms : List Micro) (s : State) : (s.enter m ms).answers = s.answers := rfl
@[simp] theorem State.enter_sends (m : Micro) (ms : List Micro) (s : State) : (s.enter m ms).sends = s.sends := rfl
@[simp] theorem State.enter_trace (m : Micro) (ms : List Micro) (s : State) : (s.enter m ms).trace = s.trace := rfl

@[simp] theorem State.start_cfg (i : Instr) (b : List Micro) (s : State) : (s.start i b).cfg = s.cfg := rfl
@[simp] theorem State.start_life (i : Instr) (b : List Micro) (s : State) : (s.start i b).life = if i = .init then .initializing else s.life := rfl
@[simp] theorem State.start_op (i : Instr) (b : List Micro) (s : State) : (s.start i b).op = some i := rfl
@[simp] theorem State.start_pc (i : Instr) (b : List Micro) (s : State) : (s.start i b).pc = Pc.zero := rfl
@[simp] theorem State.start_status (i : Instr) (b : List Micro) (s : State) : (s.start i b).status = s.status := rfl
@[simp] theorem State.start_errKind (i : Instr) (b : List Micro) (s : State) : (s.start i b).errKind = s.errKind := rfl
@[simp] theorem State.start_errStep (i : Instr) (b : List Micro) (s : State) : (s.start i b).errStep = s.errStep := rfl
@[simp] theorem State.start_port (i : Instr) (b : List Micro) (s : State) : (s.start i b).port = s.port := rfl
@[simp] theorem State.start_ctl (i : Instr) (b : List Micro) (s : State) : (s.start i b).ctl = s.ctl := rfl
@[simp] theorem State.start_rest (i : Instr) (b : List Micro) (s : State) : (s.start i b).rest = b := rfl
@[simp] theorem State.start_offers (i : Instr) (b : List Micro) (s : State) : (s.start i b).offers = s.offers := rfl
@[simp] theorem State.start_answers (i : Instr) (b : List Micro) (s : State) : (s.start i b).answers = s.answers := rfl
@[simp] theorem State.start_sends (i : Instr) (b : List Micro) (s : State) : (s.start i b).sends = s.sends := rfl
@[simp] theorem State.start_trace (i : Instr) (b : List Micro) (s : State) : (s.start i b).trace = s.trace := rfl

@[simp] theorem State.finish_cfg (s : State) : s.finish.cfg = s.cfg := rfl
@[simp] theorem State.finish_life (s : State) : s.finish.life = lifeAtEnd s.op s.life := rfl
@[simp] theorem State.finish_op (s : State) : s.finish.op = none := rfl
@[simp] theorem State.finish_pc (s : State) : s.finish.pc = Pc.zero := rfl
@[simp] theorem State.finish_status (s : State) : s.finish.status = .ok := rfl
@[simp] theorem State.finish_errKind (s : State) : s.finish.errKind = s.errKind := rfl
@[simp] theorem State.finish_errStep (s : State) : s.finish.errStep = s.errStep := rfl
@[simp] theorem State.finish_port (s : State) : s.finish.port = s.port := rfl
@[simp] theorem State.finish_ctl (s : State) : s.finish.ctl = s.ctl := rfl
@[simp] theorem State.finish_rest (s : State) : s.finish.rest = [] := rfl
@[simp] theorem State.finish_offers (s : State) : s.finish.offers = s.offers := rfl
@[simp] theorem State.finish_answers (s : State) : s.finish.answers = s.answers := rfl
@[simp] theorem State.finish_sends (s : State) : s.finish.sends = s.sends := rfl
@[simp] theorem State.finish_trace (s : State) : s.finish.trace = s.trace := rfl

@[simp] theorem State.raiseBus_cfg (k : BusKind) (s : State) : (s.raiseBus k).cfg = s.cfg := rfl
@[simp] theorem State.raiseBus_life (k : BusKind) (s : State) : (s.raiseBus k).life = s.life := rfl
@[simp] theorem State.raiseBus_op (k : BusKind) (s : State) : (s.raiseBus k).op = none := rfl
@[simp] theorem State.raiseBus_pc (k : BusKind) (s : State) : (s.raiseBus k).pc = Pc.zero := rfl
@[simp] theorem State.raiseBus_status (k : BusKind) (s : State) : (s.raiseBus k).status = .busError := rfl
@[simp] theorem State.raiseBus_errKind (k : BusKind) (s : State) : (s.raiseBus k).errKind = some k := rfl
@[simp] theorem State.raiseBus_errStep (k : BusKind) (s : State) : (s.raiseBus k).errStep = s.errStep := rfl
@[simp] theorem State.raiseBus_port (k : BusKind) (s : State) : (s.raiseBus k).port = s.port := rfl
@[simp] theorem State.raiseBus_ctl (k : BusKind) (s : State) : (s.raiseBus k).ctl = s.ctl.drawPairing := rfl
@[simp] theorem State.raiseBus_rest (k : BusKind) (s : State) : (s.raiseBus k).rest = [] := rfl
@[simp] theorem State.raiseBus_offers (k : BusKind) (s : State) : (s.raiseBus k).offers = s.offers := rfl
@[simp] theorem State.raiseBus_answers (k : BusKind) (s : State) : (s.raiseBus k).answers = s.answers := rfl
@[simp] theorem State.raiseBus_sends (k : BusKind) (s : State) : (s.raiseBus k).sends = s.sends := rfl
@[simp] theorem State.raiseBus_trace (k : BusKind) (s : State) : (s.raiseBus k).trace = s.trace := rfl

@[simp] theorem State.raiseInit_cfg (k : BusKind) (s : State) : (s.raiseInit k).cfg = s.cfg := rfl
@[simp] theorem State.raiseInit_life (k : BusKind) (s : State) : (s.raiseInit k).life = .failed := rfl
@[simp] theorem State.raiseInit_op (k : BusKind) (s : State) : (s.raiseInit k).op = none := rfl
@[simp] theorem State.raiseInit_pc (k : BusKind) (s : State) : (s.raiseInit k).pc = Pc.zero := rfl
@[simp] theorem State.raiseInit_status (k : BusKind) (s : State) : (s.raiseInit k).status = .initError := rfl
@[simp] theorem State.raiseInit_errKind (k : BusKind) (s : State) : (s.raiseInit k).errKind = some k := rfl
@[simp] theorem State.raiseInit_errStep (k : BusKind) (s : State) : (s.raiseInit k).errStep = s.pc.step := rfl
@[simp] theorem State.raiseInit_port (k : BusKind) (s : State) : (s.raiseInit k).port = s.port := rfl
@[simp] theorem State.raiseInit_ctl (k : BusKind) (s : State) : (s.raiseInit k).ctl = s.ctl := rfl
@[simp] theorem State.raiseInit_rest (k : BusKind) (s : State) : (s.raiseInit k).rest = [] := rfl
@[simp] theorem State.raiseInit_offers (k : BusKind) (s : State) : (s.raiseInit k).offers = s.offers := rfl
@[simp] theorem State.raiseInit_answers (k : BusKind) (s : State) : (s.raiseInit k).answers = s.answers := rfl
@[simp] theorem State.raiseInit_sends (k : BusKind) (s : State) : (s.raiseInit k).sends = s.sends := rfl
@[simp] theorem State.raiseInit_trace (k : BusKind) (s : State) : (s.raiseInit k).trace = s.trace := rfl

@[simp] theorem State.attach_cfg (c : Cfg) (s : State) : (s.attach c).cfg = c := rfl
@[simp] theorem State.attach_life (c : Cfg) (s : State) : (s.attach c).life = .reset := rfl
@[simp] theorem State.attach_op (c : Cfg) (s : State) : (s.attach c).op = none := rfl
@[simp] theorem State.attach_pc (c : Cfg) (s : State) : (s.attach c).pc = Pc.zero := rfl
@[simp] theorem State.attach_status (c : Cfg) (s : State) : (s.attach c).status = .ok := rfl
@[simp] theorem State.attach_errKind (c : Cfg) (s : State) : (s.attach c).errKind = none := rfl
@[simp] theorem State.attach_errStep (c : Cfg) (s : State) : (s.attach c).errStep = 0 := rfl
@[simp] theorem State.attach_port (c : Cfg) (s : State) : (s.attach c).port = s.port := rfl
@[simp] theorem State.attach_ctl (c : Cfg) (s : State) : (s.attach c).ctl = s.ctl := rfl
@[simp] theorem State.attach_rest (c : Cfg) (s : State) : (s.attach c).rest = [] := rfl
@[simp] theorem State.attach_offers (c : Cfg) (s : State) : (s.attach c).offers = s.offers := rfl
@[simp] theorem State.attach_answers (c : Cfg) (s : State) : (s.attach c).answers = s.answers := rfl
@[simp] theorem State.attach_sends (c : Cfg) (s : State) : (s.attach c).sends = s.sends := rfl
@[simp] theorem State.attach_trace (c : Cfg) (s : State) : (s.attach c).trace = s.trace := rfl

/-! The send: every field but the port and the controller changes the same way whatever the bus does. -/

@[simp] theorem State.sent_cfg (b : Byte) (s : State) : (s.sent b).cfg = s.cfg := by
  unfold State.sent; split <;> rfl
@[simp] theorem State.sent_life (b : Byte) (s : State) : (s.sent b).life = s.life := by
  unfold State.sent; split <;> rfl
@[simp] theorem State.sent_op (b : Byte) (s : State) : (s.sent b).op = s.op := by
  unfold State.sent; split <;> rfl
@[simp] theorem State.sent_pc (b : Byte) (s : State) : (s.sent b).pc = s.pc := by
  unfold State.sent; split <;> rfl
@[simp] theorem State.sent_status (b : Byte) (s : State) : (s.sent b).status = s.status := by
  unfold State.sent; split <;> rfl
@[simp] theorem State.sent_errKind (b : Byte) (s : State) : (s.sent b).errKind = s.errKind := by
  unfold State.sent; split <;> rfl
@[simp] theorem State.sent_errStep (b : Byte) (s : State) : (s.sent b).errStep = s.errStep := by
  unfold State.sent; split <;> rfl
@[simp] theorem State.sent_rest (b : Byte) (s : State) : (s.sent b).rest = s.rest := by
  unfold State.sent; split <;> rfl
@[simp] theorem State.sent_offers (b : Byte) (s : State) : (s.sent b).offers = s.offers := by
  unfold State.sent; split <;> rfl
@[simp] theorem State.sent_answers (b : Byte) (s : State) : (s.sent b).answers = s.answers.tail := by
  unfold State.sent; split <;> rfl
@[simp] theorem State.sent_sends (b : Byte) (s : State) : (s.sent b).sends = s.sends + 1 := by
  unfold State.sent; split <;> rfl
@[simp] theorem State.sent_trace (b : Byte) (s : State) : (s.sent b).trace = s.trace ++ [.send s.cfg.devAddr b (s.turnAt 0).reply] := by
  unfold State.sent; split <;> rfl

/-- A send that reached the port leaves its byte there. -/
theorem State.sent_port_of_lands {b : Byte} {s : State} (h : (s.turnAt 0).lands = true) :
    (s.sent b).port = b := by simp [State.sent, h]

/-- A send that did not reach the port leaves it alone. -/
theorem State.sent_port_of_not_lands {b : Byte} {s : State} (h : (s.turnAt 0).lands = false) :
    (s.sent b).port = s.port := by simp [State.sent, h]

/-- A send that reached the port is seen by the controller. -/
theorem State.sent_ctl_of_lands {b : Byte} {s : State} (h : (s.turnAt 0).lands = true) :
    (s.sent b).ctl = s.ctl.observe s.cfg s.port b := by simp [State.sent, h]

/-- A send that did not reach the port is not seen by the controller. -/
theorem State.sent_ctl_of_not_lands {b : Byte} {s : State} (h : (s.turnAt 0).lands = false) :
    (s.sent b).ctl = s.ctl := by simp [State.sent, h]

/-- An answer `ok` means that the byte reached the port. -/
theorem lands_of_reply_ok {t : Turn} (h : t.reply = .ok) : t.lands = true := by
  cases t <;> simp_all [Turn.reply, Turn.lands]

/-! The bus oracle: the coming answers depend on the two oracle fields alone, and a send takes one. -/

theorem State.turnAt_congr {s t : State} (ha : t.answers = s.answers) (hs : t.sends = s.sends) (j : Nat) :
    t.turnAt j = s.turnAt j := by simp [State.turnAt, ha, hs]

/-- After a send the answers move up by one. -/
theorem State.turnAt_shift {s t : State} (ha : t.answers = s.answers.tail) (hs : t.sends = s.sends + 1)
    (j : Nat) : t.turnAt j = s.turnAt (j + 1) := by
  have h : s.sends + 1 + j = s.sends + (j + 1) := by omega
  cases hl : s.answers <;> simp [State.turnAt, ha, hs, hl, h]

end Sys2Proof.Machine
end

