-- ==== Sys2Proof/Laws/Run.lean ====
section
/-! SUPPORT. What a run of statements, of a primitive and of an operation's body can do, said once: with a fault-free bus
it goes through and its trace is the one written out; at the first failing send it ends there and the error is raised.
Claims about instructions cite these and do not unfold the run. -/

namespace Sys2Proof.Machine

/-- What the events of a fault-free run do to the port and the controller behind it. -/
def seen (c : Cfg) : List Event → Byte × Ctl → Byte × Ctl
  | [], x => x
  | .send _ b _ :: tr, x => seen c tr (b, x.2.observe c x.1 b)
  | .wait t :: tr, x => seen c tr (x.1, x.2.passed t)

theorem seen_append (c : Cfg) (a b : List Event) (x : Byte × Ctl) : seen c (a ++ b) x = seen c b (seen c a x) := by
  induction a generalizing x with
  | nil => rfl
  | cons e a ih => cases e <;> simp [seen, ih]

/-- From `s` to `t`, `n` sends answered `ok` have been made and the events `tr` emitted; everything but the places of the
sequencer follows from that. -/
structure Advance (n : Nat) (tr : List Event) (s t : State) : Prop where
  cfg : t.cfg = s.cfg
  life : t.life = s.life
  op : t.op = s.op
  status : t.status = s.status
  errKind : t.errKind = s.errKind
  errStep : t.errStep = s.errStep
  offers : t.offers = s.offers
  trace : t.trace = s.trace ++ tr
  sends : t.sends = s.sends + n
  answers : t.answers = s.answers.drop n
  seen : (t.port, t.ctl) = seen s.cfg tr (s.port, s.ctl)

theorem Advance.trans {m n : Nat} {a b : List Event} {s t u : State} (h : Advance m a s t) (g : Advance n b t u) :
    Advance (m + n) (a ++ b) s u where
  cfg := g.cfg.trans h.cfg
  life := g.life.trans h.life
  op := g.op.trans h.op
  status := g.status.trans h.status
  errKind := g.errKind.trans h.errKind
  errStep := g.errStep.trans h.errStep
  offers := g.offers.trans h.offers
  trace := by simp [g.trace, h.trace]
  sends := by rw [g.sends, h.sends]; omega
  answers := by rw [g.answers, h.answers, List.drop_drop]
  seen := by rw [g.seen, h.cfg, h.seen, seen_append]

/-- The coming answers move up by the sends made. -/
theorem Advance.turnAt {n : Nat} {tr : List Event} {s t : State} (h : Advance n tr s t) (j : Nat) :
    t.turnAt j = s.turnAt (n + j) := by
  simp only [State.turnAt, h.answers, h.sends, List.getElem?_drop]
  rw [Nat.add_assoc]

theorem Advance.port {n : Nat} {tr : List Event} {s t : State} (h : Advance n tr s t) :
    t.port = (Machine.seen s.cfg tr (s.port, s.ctl)).1 := by rw [← h.seen]

theorem Advance.ctl {n : Nat} {tr : List Event} {s t : State} (h : Advance n tr s t) :
    t.ctl = (Machine.seen s.cfg tr (s.port, s.ctl)).2 := by rw [← h.seen]

/-- Staying makes no send and no event. -/
theorem Advance.refl (s : State) : Advance 0 [] s s := by
  constructor <;> simp [Machine.seen]

/-- Moving the sequencer's place makes no send and no event. -/
theorem advance_setPhase (k : Fin 4) (s : State) : Advance 0 [] s (s.setPhase k) := by
  constructor <;> simp [Machine.seen]

theorem advance_setNib (k : Fin 2) (s : State) : Advance 0 [] s (s.setNib k) := by
  constructor <;> simp [Machine.seen]

theorem advance_enter (m : Micro) (ms : List Micro) (s : State) : Advance 0 [] s (s.enter m ms) := by
  constructor <;> simp [Machine.seen]

/-- A send answered `ok`. -/
theorem advance_sent {s : State} (h : (s.turnAt 0).reply = .ok) (b : Byte) :
    Advance 1 [sendOk s.cfg b] s (s.sent b) := by
  have hl := lands_of_reply_ok h
  constructor <;> simp [sendOk, h, State.sent_port_of_lands hl, State.sent_ctl_of_lands hl, seen]

/-- A wait. -/
theorem advance_waits (s : State) (t : WaitName) : Advance 0 [.wait t] s (s.waits t) := by
  constructor <;> simp [seen]

/-! Fault-free prefixes of the bus. -/

theorem faultFree_zero (s : State) : FaultFree 0 s := by intro j h; omega

theorem FaultFree.mono {m n : Nat} {s : State} (h : FaultFree n s) (hm : m ≤ n) : FaultFree m s :=
  fun j hj => h j (by omega)

theorem FaultFree.after {m n : Nat} {tr : List Event} {s t : State} (h : FaultFree (m + n) s)
    (a : Advance m tr s t) : FaultFree n t := by
  intro j hj
  rw [a.turnAt]
  exact h _ (by omega)

theorem FailsFirstAt.after {m k : Nat} {kind : BusKind} {tr : List Event} {s t : State}
    (h : FailsFirstAt (m + k) kind s) (a : Advance m tr s t) : FailsFirstAt k kind t :=
  ⟨h.1.after a, by rw [a.turnAt]; exact h.2⟩

/-- Either the next `n` sends all succeed, or one of them is the first that fails. -/
theorem faultFree_or_fails (n : Nat) (s : State) :
    FaultFree n s ∨ ∃ k kind, k < n ∧ FailsFirstAt k kind s := by
  induction n with
  | zero => exact .inl (faultFree_zero s)
  | succ n ih =>
    rcases ih with h | ⟨k, kind, hk, h⟩
    · rcases hr : (s.turnAt n).reply with _ | kind
      · refine .inl fun j hj => ?_
        rcases Nat.lt_succ_iff_lt_or_eq.1 hj with hj | rfl
        · exact h j hj
        · exact hr
      · exact .inr ⟨n, kind, by omega, h, hr⟩
    · exact .inr ⟨k, kind, by omega, h⟩

/-! Cutting a trace at a failing send. -/

@[simp] theorem sendCount_nil : sendCount [] = 0 := rfl

@[simp] theorem sendCount_wait (t : WaitName) (tr : List Event) : sendCount (.wait t :: tr) = sendCount tr := rfl

@[simp] theorem sendCount_send (d : BitVec 7) (b : Byte) (r : Reply) (tr : List Event) :
    sendCount (.send d b r :: tr) = sendCount tr + 1 := rfl

@[simp] theorem sendCount_append (a b : List Event) : sendCount (a ++ b) = sendCount a + sendCount b := by
  simp [sendCount, bytesOf]

theorem cutAt_append_left {kind : BusKind} {k : Nat} {a : List Event} (h : k < sendCount a) (b : List Event) :
    cutAt kind k (a ++ b) = cutAt kind k a := by
  induction a generalizing k with
  | nil => simp at h
  | cons e a ih =>
    cases e with
    | wait t => simpa [cutAt] using ih (by simpa using h)
    | send d c r =>
      cases k with
      | zero => simp [cutAt]
      | succ k =>
        simp only [List.cons_append, cutAt]
        rw [ih]
        simpa using h

theorem cutAt_append_right {kind : BusKind} {k : Nat} (a b : List Event) :
    cutAt kind (sendCount a + k) (a ++ b) = a ++ cutAt kind k b := by
  induction a with
  | nil => simp
  | cons e a ih =>
    cases e with
    | wait t => simpa [cutAt] using ih
    | send d c r =>
      have : sendCount (.send d c r :: a) + k = (sendCount a + k) + 1 := by
        simp only [sendCount_send]; omega
      rw [this]
      simpa [cutAt] using ih

/-! Statements. -/

/-- The number of sends of a list of statements. -/
def actSends : List Act → Nat
  | [] => 0
  | .send _ _ _ _ :: acts => actSends acts + 1
  | .wait _ :: acts => actSends acts
  | .nib _ :: acts => actSends acts

/-- The fault-free trace of a list of statements. -/
def actsTrace (c : Cfg) : List Act → List Event
  | [] => []
  | .send n rs en _ :: acts => sendOk c (fmt c n rs en) :: actsTrace c acts
  | .wait t :: acts => .wait t :: actsTrace c acts
  | .nib _ :: acts => actsTrace c acts

theorem sendCount_actsTrace (c : Cfg) (acts : List Act) : sendCount (actsTrace c acts) = actSends acts := by
  induction acts with
  | nil => rfl
  | cons a acts ih => cases a <;> simpa [actsTrace, actSends, sendOk] using ih

/-- Where a list of statements leaves the place of the sequencer. -/
def actsPc : List Act → Pc → Pc
  | [], p => p
  | .send _ _ _ phase :: acts, p => actsPc acts { p with phase := phase }
  | .wait _ :: acts, p => actsPc acts p
  | .nib k :: acts, p => actsPc acts { p with nib := k, phase := 0 }

/-- Statements run through when the bus is fault-free. -/
theorem runActs_ok {acts : List Act} {s : State} (h : FaultFree (actSends acts) s) :
    ∃ t, runActs acts s = .going t ∧ Advance (actSends acts) (actsTrace s.cfg acts) s t ∧ t.rest = s.rest ∧
      t.pc = actsPc acts s.pc := by
  induction acts generalizing s with
  | nil => exact ⟨s, rfl, .refl s, rfl, rfl⟩
  | cons a acts ih =>
    cases a with
    | send n rs en ph =>
      have h0 : (s.turnAt 0).reply = .ok := h 0 (by simp [actSends])
      have a1 : Advance 1 [sendOk s.cfg (fmt s.cfg n rs en)] s ((s.sent (fmt s.cfg n rs en)).setPhase ph) :=
        (advance_sent h0 _).trans (advance_setPhase ph _)
      obtain ⟨t, ht, a2, hr, hp⟩ := ih (FaultFree.after (by simpa [actSends, Nat.add_comm] using h) a1)
      refine ⟨t, by simpa [runActs, h0] using ht, ?_, by simpa using hr, by simpa [actsPc] using hp⟩
      have := a1.trans a2
      simpa [actSends, actsTrace, Nat.add_comm] using this
    | wait w =>
      have a1 := advance_waits s w
      obtain ⟨t, ht, a2, hr, hp⟩ := ih (FaultFree.after (by simpa [actSends] using h) a1)
      refine ⟨t, by simpa [runActs] using ht, ?_, by simpa using hr, by simpa [actsPc] using hp⟩
      simpa [actSends, actsTrace] using a1.trans a2
    | nib k =>
      have a1 : Advance 0 [] s (s.setNib k) := advance_setNib k s
      obtain ⟨t, ht, a2, hr, hp⟩ := ih (FaultFree.after (by simpa [actSends] using h) a1)
      refine ⟨t, by simpa [runActs] using ht, ?_, by simpa using hr, by simpa [actsPc] using hp⟩
      simpa [actSends, actsTrace] using a1.trans a2

/-- Statements end at the first failing send, and its error is raised there. -/
theorem runActs_fails {acts : List Act} {s : State} {k : Nat} {kind : BusKind} (h : FailsFirstAt k kind s)
    (hk : k < actSends acts) :
    ∃ u n rs en tr, runActs acts s = .ended ((u.sent (fmt s.cfg n rs en)).raise kind) ∧ Advance k tr s u ∧
      (u.turnAt 0).reply = .error kind ∧
      tr ++ [.send s.cfg.devAddr (fmt s.cfg n rs en) (.error kind)] = cutAt kind k (actsTrace s.cfg acts) ∧
      u.rest = s.rest ∧ u.pc.step = s.pc.step := by
  induction acts generalizing s k with
  | nil => simp [actSends] at hk
  | cons a acts ih =>
    cases a with
    | send n rs en ph =>
      cases k with
      | zero =>
        have h0 := h.2
        exact ⟨s, n, rs, en, [], by simp [runActs, h0], .refl s, h0, by simp [actsTrace, cutAt, sendOk], rfl, rfl⟩
      | succ k =>
        have h0 : (s.turnAt 0).reply = .ok := h.1 0 (by omega)
        have a1 : Advance 1 [sendOk s.cfg (fmt s.cfg n rs en)] s ((s.sent (fmt s.cfg n rs en)).setPhase ph) :=
          (advance_sent h0 _).trans (advance_setPhase ph _)
        obtain ⟨u, n', rs', en', tr, hu, a2, hf, htr, hr, hp⟩ :=
          ih (FailsFirstAt.after (m := 1) (by rwa [Nat.add_comm]) a1) (by simpa [actSends] using hk)
        refine ⟨u, n', rs', en', _, by simpa [runActs, h0] using hu, (Nat.add_comm 1 k) ▸ a1.trans a2, hf, ?_,
          by simpa using hr, by simpa using hp⟩
        simp only [a1.cfg] at htr
        simp [actsTrace, cutAt, sendOk, htr]
    | wait w =>
      have a1 := advance_waits s w
      obtain ⟨u, n', rs', en', tr, hu, a2, hf, htr, hr, hp⟩ :=
        ih (FailsFirstAt.after (m := 0) (by simpa using h) a1) (by simpa [actSends] using hk)
      refine ⟨u, n', rs', en', _, by simpa [runActs] using hu, (Nat.zero_add k) ▸ a1.trans a2, hf, ?_,
        by simpa using hr, by simpa using hp⟩
      simp only [a1.cfg] at htr
      simp [actsTrace, cutAt, htr]
    | nib j =>
      have a1 : Advance 0 [] s (s.setNib j) := advance_setNib j s
      obtain ⟨u, n', rs', en', tr, hu, a2, hf, htr, hr, hp⟩ :=
        ih (FailsFirstAt.after (m := 0) (by simpa using h) a1) (by simpa [actSends] using hk)
      refine ⟨u, n', rs', en', _, by simpa [runActs] using hu, (Nat.zero_add k) ▸ a1.trans a2, hf, ?_,
        by simpa using hr, by simpa using hp⟩
      simp only [a1.cfg] at htr
      simp [actsTrace, htr]

/-! Bodies of operations. -/

/-- The number of sends of a body. -/
def microsSends : List Micro → Nat
  | [] => 0
  | m :: ms => actSends (Prim.acts m.prim) + microsSends ms

/-- The fault-free trace of a body. -/
def microsTrace (c : Cfg) : List Micro → List Event
  | [] => []
  | m :: ms => actsTrace c (Prim.acts m.prim) ++ microsTrace c ms

/-- The step of the primitive that send number `k` of a body belongs to. -/
def microsStep : List Micro → Nat → Fin 9
  | [], _ => 0
  | m :: ms, k => if k < actSends (Prim.acts m.prim) then m.step else microsStep ms (k - actSends (Prim.acts m.prim))

/-- A body runs to its normal end when the bus is fault-free. -/
theorem runMicros_ok {ms : List Micro} {s : State} (h : FaultFree (microsSends ms) s) :
    ∃ t, runMicros ms s = t.finish ∧ Advance (microsSends ms) (microsTrace s.cfg ms) s t := by
  induction ms generalizing s with
  | nil => exact ⟨s, rfl, .refl s⟩
  | cons m ms ih =>
    have a0 : Advance 0 [] s (s.enter m ms) := advance_enter m ms s
    obtain ⟨t, ht, a1, -, -⟩ := runActs_ok (acts := Prim.acts m.prim)
      ((FaultFree.after (m := 0) (by simpa using h) a0).mono (by simp [microsSends]))
    have a01 := a0.trans a1
    obtain ⟨u, hu, a2⟩ := ih (FaultFree.after (by simpa [microsSends] using h) a01)
    refine ⟨u, by simpa [runMicros, runPrim, ht] using hu, ?_⟩
    simpa [microsSends, microsTrace, a01.cfg] using a01.trans a2

/-- A body ends at the first failing send, and its error is raised in the step that send belongs to. -/
theorem runMicros_fails {ms : List Micro} {s : State} {k : Nat} {kind : BusKind} (h : FailsFirstAt k kind s)
    (hk : k < microsSends ms) :
    ∃ u n rs en tr, runMicros ms s = (u.sent (fmt s.cfg n rs en)).raise kind ∧ Advance k tr s u ∧
      (u.turnAt 0).reply = .error kind ∧
      tr ++ [.send s.cfg.devAddr (fmt s.cfg n rs en) (.error kind)] = cutAt kind k (microsTrace s.cfg ms) ∧
      u.pc.step = microsStep ms k := by
  induction ms generalizing s k with
  | nil => simp [microsSends] at hk
  | cons m ms ih =>
    have a0 : Advance 0 [] s (s.enter m ms) := advance_enter m ms s
    have hf0 := FailsFirstAt.after (m := 0) (by simpa using h) a0
    by_cases hlt : k < actSends (Prim.acts m.prim)
    · obtain ⟨u, n, rs, en, tr, hu, a1, hf, htr, -, hp⟩ := runActs_fails (acts := Prim.acts m.prim) hf0 hlt
      refine ⟨u, n, rs, en, tr, by simp [runMicros, runPrim, hu], ?_, hf, ?_, ?_⟩
      · simpa using a0.trans a1
      · rw [microsTrace, cutAt_append_left (by rwa [sendCount_actsTrace])]
        simpa using htr
      · simpa [microsStep, hlt] using hp
    · obtain ⟨j, rfl⟩ : ∃ j, k = actSends (Prim.acts m.prim) + j := ⟨_, (Nat.add_sub_cancel' (by omega)).symm⟩
      obtain ⟨t, ht, a1, -, -⟩ := runActs_ok (acts := Prim.acts m.prim) (hf0.1.mono (by omega))
      have a01 := a0.trans a1
      obtain ⟨u, n, rs, en, tr, hu, a2, hf, htr, hp⟩ :=
        ih (FailsFirstAt.after (by simpa using h) a01) (by simpa [microsSends] using hk)
      rw [a01.cfg] at hu htr
      refine ⟨u, n, rs, en, _, by simpa [runMicros, runPrim, ht] using hu, by simpa using a01.trans a2, hf, ?_, ?_⟩
      · rw [microsTrace]
        have := cutAt_append_right (kind := kind) (k := j) (actsTrace s.cfg (Prim.acts m.prim)) (microsTrace s.cfg ms)
        rw [sendCount_actsTrace] at this
        rw [this, ← htr]
        simp
      · rw [microsStep, if_neg hlt, Nat.add_sub_cancel_left]
        exact hp

/-! Operations of the command port. -/

/-- An idle block has nothing to drain. -/
theorem drain_of_idle {s : State} (h : s.op = none) : s.drain = s := by simp [State.drain, h]

/-- Admission in an idle block: the operands in range, a legal configuration, the state that admits the form. -/
theorem refusal?_of_idle {i : Instr} {s : State} (hi : i.wellFormed = true) (h : IdleIn (admittedIn i) s) :
    refusal? i s = none := by simp [refusal?, hi, h.2.1, h.2.2]

/-- An admitted operation runs its body from its start. -/
theorem runOperation_admitted {i : Instr} {body : List Micro} {s : State} (hi : i.wellFormed = true)
    (h : IdleIn (admittedIn i) s) : runOperation i body s = .next (runMicros body (s.start i body)) := by
  simp [runOperation, drain_of_idle h.1, refusal?_of_idle hi h]

/-- Starting makes no send. -/
theorem turnAt_start (s : State) (i : Instr) (body : List Micro) (j : Nat) : (s.start i body).turnAt j = s.turnAt j :=
  rfl

/-- An admitted operation with a fault-free bus ends OK, its trace longer by the trace of its body. -/
theorem runOperation_ok {i : Instr} {body : List Micro} {s : State} (hi : i.wellFormed = true)
    (h : IdleIn (admittedIn i) s) (hf : FaultFree (microsSends body) s) :
    ∃ t, runOperation i body s = .next t ∧
      EndedOk (lifeAtEnd (some i) (if i = .init then .initializing else s.life)) s t ∧ KeepsHostSide s t ∧
      t.rest = [] ∧ t.trace = s.trace ++ microsTrace s.cfg body ∧ t.sends = s.sends + microsSends body ∧
      t.answers = s.answers.drop (microsSends body) ∧
      (t.port, t.ctl) = seen s.cfg (microsTrace s.cfg body) (s.port, s.ctl) := by
  obtain ⟨t, ht, a⟩ := runMicros_ok (ms := body) (s := s.start i body) hf
  refine ⟨t.finish, by rw [runOperation_admitted hi h, ht], ?_, ?_, rfl, ?_, ?_, ?_, ?_⟩
  · refine ⟨?_, rfl, rfl, rfl, by simpa using a.errKind, by simpa using a.errStep⟩
    simp [a.op, a.life]
  · exact ⟨by simpa using a.cfg, by simpa using a.offers⟩
  · simpa using a.trace
  · simpa using a.sends
  · simpa using a.answers
  · simpa using a.seen

/-- An admitted command with a fault-free bus: its trace is that of its body, it ends OK in READY and has nothing left. -/
theorem runCommand_ok {i : Instr} {body : List Micro} {s : State} (hi : i.wellFormed = true)
    (hc : i.isCommand = true) (h : IdleIn .ready s) (hf : FaultFree (microsSends body) s) :
    ∃ t, runOperation i body s = .next t ∧ t.trace = s.trace ++ microsTrace s.cfg body ∧ EndedOk .ready s t ∧
      KeepsHostSide s t ∧ (t.port, t.ctl) = seen s.cfg (microsTrace s.cfg body) (s.port, s.ctl) := by
  have h0 : i ≠ .init := by rintro rfl; simp [Instr.isCommand] at hc
  have h1 : i ≠ .detach := by rintro rfl; simp [Instr.isCommand] at hc
  obtain ⟨t, ht, he, hk, -, htr, -, -, hs⟩ := runOperation_ok hi (by simpa [admittedIn, h0] using h) hf
  exact ⟨t, ht, htr, by simpa [lifeAtEnd, h0, h1, h.2.1] using he, hk, hs⟩

/-- An admitted operation ends at its first failing send, with the error raised there. -/
theorem runOperation_fails {i : Instr} {body : List Micro} {s : State} {k : Nat} {kind : BusKind}
    (hi : i.wellFormed = true) (h : IdleIn (admittedIn i) s) (hf : FailsFirstAt k kind s)
    (hk : k < microsSends body) :
    ∃ u n rs en tr, runOperation i body s = .next ((u.sent (fmt s.cfg n rs en)).raise kind) ∧
      Advance k tr (s.start i body) u ∧ (u.turnAt 0).reply = .error kind ∧
      tr ++ [.send s.cfg.devAddr (fmt s.cfg n rs en) (.error kind)] = cutAt kind k (microsTrace s.cfg body) ∧
      u.pc.step = microsStep body k := by
  obtain ⟨u, n, rs, en, tr, hu, a, hr, htr, hp⟩ := runMicros_fails (ms := body) (s := s.start i body) hf hk
  exact ⟨u, n, rs, en, tr, by rw [runOperation_admitted hi h]; exact congrArg _ hu, a, hr, htr, hp⟩

end Sys2Proof.Machine
end

