-- ==== Sys2Proof/Laws/Bodies.lean ====
section
/-! SUPPORT. The bodies of the operations: their sends and their fault-free traces. -/

namespace Sys2Proof.Machine

theorem actsTrace_nibble (c : Cfg) (n : Nibble) (rs : Bool) :
    actsTrace c (nibbleActs n rs) = nibbleTrace c n rs := rfl

theorem actsTrace_byte (c : Cfg) (v : Byte) (rs : Bool) : actsTrace c (byteActs v rs) = byteTrace c v rs := rfl

@[simp] theorem microsTrace_transfer (c : Cfg) (rs : Bool) (v : Byte) :
    microsTrace c (transfer rs v) = byteTrace c v rs := rfl

@[simp] theorem microsTrace_transferThenWait (c : Cfg) (rs : Bool) (v : Byte) (t : WaitName) :
    microsTrace c (transferThenWait rs v t) = byteTrace c v rs ++ [.wait t] := rfl

@[simp] theorem microsSends_transfer (rs : Bool) (v : Byte) : microsSends (transfer rs v) = 6 := rfl

@[simp] theorem microsSends_transferThenWait (rs : Bool) (v : Byte) (t : WaitName) :
    microsSends (transferThenWait rs v t) = 6 := rfl

/-- INIT emits the step table (43_init_sequencer.md R128). -/
theorem microsTrace_init (c : Cfg) : microsTrace c initBody = initTrace c := rfl

theorem microsSends_init : microsSends initBody = 42 := rfl

/-- The step a send of INIT belongs to (R128). -/
theorem microsStep_init (k : Nat) (h : k < 42) : microsStep initBody k = initStepOf k := by
  revert k; decide

/-! The guaranteed time of a trace (70_reset_and_hazards.md R169). -/

@[simp] theorem waitTotal_nil : waitTotal [] = 0 := rfl

@[simp] theorem waitTotal_send (d : BitVec 7) (b : Byte) (r : Reply) (tr : List Event) :
    waitTotal (.send d b r :: tr) = waitTotal tr := by simp [waitTotal, Event.micros]

@[simp] theorem waitTotal_wait (t : WaitName) (tr : List Event) :
    waitTotal (.wait t :: tr) = t.micros + waitTotal tr := by simp [waitTotal, Event.micros]

@[simp] theorem waitTotal_append (a b : List Event) : waitTotal (a ++ b) = waitTotal a + waitTotal b := by
  simp [waitTotal]

@[simp] theorem waitTotal_nibbleTrace (c : Cfg) (n : Nibble) (rs : Bool) : waitTotal (nibbleTrace c n rs) = 1000 := by
  simp [nibbleTrace, sendOk, WaitName.micros]

@[simp] theorem waitTotal_byteTrace (c : Cfg) (v : Byte) (rs : Bool) : waitTotal (byteTrace c v rs) = 2000 := by
  simp [byteTrace]

@[simp] theorem sendCount_nibbleTrace (c : Cfg) (n : Nibble) (rs : Bool) : sendCount (nibbleTrace c n rs) = 3 := rfl

@[simp] theorem sendCount_byteTrace (c : Cfg) (v : Byte) (rs : Bool) : sendCount (byteTrace c v rs) = 6 := rfl

@[simp] theorem waitCount_nil (t : WaitName) : waitCount t [] = 0 := rfl

@[simp] theorem waitCount_send (t : WaitName) (d : BitVec 7) (b : Byte) (r : Reply) (tr : List Event) :
    waitCount t (.send d b r :: tr) = waitCount t tr := by simp [waitCount]

@[simp] theorem waitCount_wait (t u : WaitName) (tr : List Event) :
    waitCount t (.wait u :: tr) = waitCount t tr + if u = t then 1 else 0 := by
  simp [waitCount, List.count_cons]

@[simp] theorem waitCount_append (t : WaitName) (a b : List Event) :
    waitCount t (a ++ b) = waitCount t a + waitCount t b := by simp [waitCount]

@[simp] theorem waitCount_nibbleTrace (t : WaitName) (c : Cfg) (n : Nibble) (rs : Bool) :
    waitCount t (nibbleTrace c n rs) = if .tEP = t then 2 else 0 := by
  simp [nibbleTrace, sendOk]; split <;> rfl

@[simp] theorem waitCount_byteTrace (t : WaitName) (c : Cfg) (v : Byte) (rs : Bool) :
    waitCount t (byteTrace c v rs) = if .tEP = t then 4 else 0 := by
  simp [byteTrace]; split <;> rfl

/-- The port after a fault-free byte. -/
theorem seen_byte_port (c : Cfg) (v : Byte) (rs : Bool) (x : Byte × Ctl) :
    (seen c (byteTrace c v rs) x).1 = fmt c (lowNibble v) rs false := rfl

end Sys2Proof.Machine
end

