-- ==== Sys2Proof/Laws/Memory.lean ====
section
/-! SUPPORT. DDRAM: a read after a write, and the canonical form that every operation keeps. -/

namespace Sys2Proof.Machine

/-- A cell reads as the byte last written to it. -/
theorem Memory.read_write_same (m : Memory) (a : Nat) (b : Byte) : (m.write a b).read a = some b := by
  induction m with
  | nil => simp [Memory.write, Memory.read]
  | cons x m ih =>
    obtain ⟨k, v⟩ := x
    simp only [Memory.write]
    split
    · simp [Memory.read]
    · split
      · simp [Memory.read]
      · simp [Memory.read, ih, Ne.symm (by assumption : ¬ a = k)]

/-- A write leaves every other cell alone. -/
theorem Memory.read_write_other (m : Memory) {a k : Nat} (b : Byte) (h : k ≠ a) :
    (m.write a b).read k = m.read k := by
  induction m with
  | nil => simp [Memory.write, Memory.read, h.symm]
  | cons x m ih =>
    obtain ⟨j, v⟩ := x
    simp only [Memory.write]
    split
    · simp [Memory.read, h.symm]
    · split
      · next ha => subst ha; simp [Memory.read, h.symm]
      · simp [Memory.read, ih]

/-- Every entry after a write is an old one or the one written. -/
theorem Memory.mem_write {m : Memory} {a : Nat} {b : Byte} {x : Host.Cell} (h : x ∈ m.write a b) :
    x ∈ m ∨ x = (a, b) := by
  induction m with
  | nil => simpa [Memory.write] using h
  | cons y m ih =>
    obtain ⟨j, v⟩ := y
    simp only [Memory.write] at h
    split at h
    · simp_all; tauto
    · split at h
      · simp_all; tauto
      · rcases List.mem_cons.1 h with h | h
        · simp [h]
        · rcases ih h with h | h <;> simp [h]

/-- A write keeps the addresses rising. -/
theorem Memory.write_rising {m : Memory} (h : m.Pairwise (fun x y => x.1 < y.1)) (a : Nat) (b : Byte) :
    (m.write a b).Pairwise (fun x y => x.1 < y.1) := by
  induction m with
  | nil => simp [Memory.write]
  | cons x m ih =>
    obtain ⟨j, v⟩ := x
    obtain ⟨hx, hm⟩ := List.pairwise_cons.1 h
    simp only [Memory.write]
    split
    · next ha =>
      refine List.pairwise_cons.2 ⟨fun y hy => ?_, h⟩
      rcases List.mem_cons.1 hy with rfl | hy
      · exact ha
      · exact lt_trans ha (hx y hy)
    · split
      · next ha => subst ha; exact List.pairwise_cons.2 ⟨hx, hm⟩
      · refine List.pairwise_cons.2 ⟨fun y hy => ?_, ih hm⟩
        rcases Memory.mem_write hy with hy | rfl
        · exact hx y hy
        · simp only; omega

/-- A write of a cell keeps the canonical form. -/
theorem Memory.write_wf {m : Memory} (h : m.wf) {a : Nat} (ha : a < 128) (b : Byte) : (m.write a b).wf := by
  refine ⟨Memory.write_rising h.1 a b, fun x hx => ?_⟩
  rcases Memory.mem_write hx with hx | rfl
  · exact h.2 x hx
  · exact ha

/-- The contents Clear leaves are in canonical form. -/
theorem Memory.blank_wf : Memory.blank.wf := by
  refine ⟨?_, by simp [Memory.blank]⟩
  simpa [Memory.blank, List.pairwise_map] using List.pairwise_lt_range (n := 128)

/-- Nothing listed is in canonical form. -/
theorem Memory.nil_wf : Memory.wf [] := by decide

/-- Every cell of the contents Clear leaves reads as 0x20. -/
theorem Memory.read_blank (a : Addr) : Memory.blank.read a.toNat = some 0x20#8 := by
  revert a; decide

/-! The observer keeps the canonical form. -/

theorem deliverData_wf {k : Ctl} (h : k.ddram.wf) (d : Byte) : (deliverData d k).ddram.wf := by
  unfold deliverData
  split
  · exact Memory.write_wf h k.regs.ac.isLt d
  · exact Memory.nil_wf

theorem deliverCode_wf {k : Ctl} (h : k.ddram.wf) (c : Byte) : (deliverCode c k).ddram.wf := by
  unfold deliverCode
  repeat' split
  all_goals first
    | exact Memory.blank_wf
    | exact h
    | exact Memory.nil_wf

theorem deliver_wf {k : Ctl} (h : k.ddram.wf) (rs : Bool) (c : Byte) : (deliver rs c k).ddram.wf := by
  unfold deliver
  split
  · exact deliverData_wf h c
  · exact deliverCode_wf h c

theorem count3_ddram (n : Nibble) (rs : Bool) (k : Ctl) : (count3 n rs k).ddram = k.ddram := by
  unfold count3; split <;> rfl

theorem latch_wf {k : Ctl} (h : k.ddram.wf) (n : Nibble) (rs : Bool) : (latch n rs k).ddram.wf := by
  unfold latch
  split <;> rw [count3_ddram]
  · exact Memory.nil_wf
  · have := deliver_wf (k := { k with draws := k.draws + 1 }) h rs (joinNibbles n (Config.freeNibble k.draws))
    unfold latchM8
    simp only
    split <;> exact this
  · unfold latchM4
    split
    · exact h
    · exact deliver_wf (k := { k with half := .hi }) h rs _

/-- A byte taken by the port keeps the DDRAM's canonical form. -/
theorem Ctl.observe_wf {k : Ctl} (h : k.ddram.wf) (c : Cfg) (p q : Byte) : (k.observe c p q).ddram.wf := by
  unfold Ctl.observe
  simp only
  split
  · split
    · exact Memory.nil_wf
    · exact latch_wf (k := k.restart _) h _ _
  · exact h

/-- A wait keeps the DDRAM. -/
theorem Ctl.passed_ddram (t : WaitName) (k : Ctl) : (k.passed t).ddram = k.ddram := by
  unfold Ctl.passed; simp only; split <;> rfl

end Sys2Proof.Machine
end

