-- ==== Sys2Proof/Laws/Operands.lean ====
section
/-! SUPPORT. The bits of an ExpanderByte, the halves of a byte, and the fields of a legal configuration. -/

namespace Sys2Proof.Machine

theorem getLsbD_flagAt (b : Bool) {pos j : Nat} (hj : j < 8) :
    (flagAt b pos).getLsbD j = (decide (j = pos) && b) := by
  have h : (BitVec.ofBool b).getLsbD (j - pos) = (decide (j - pos = 0) && b) := by
    cases b <;> simp [BitVec.getLsbD_one]
  rw [flagAt, BitVec.getLsbD_shiftLeft, BitVec.getLsbD_setWidth, h]
  by_cases h1 : j < pos
  · simp [h1, show j ≠ pos by omega]
  · by_cases h2 : j = pos
    · simp [h2, show pos < 8 by omega]
    · simp [h1, h2, hj, show j - pos ≠ 0 by omega]

/-- Every bit of an ExpanderByte (30_encoding.md R67). -/
theorem getLsbD_fmt (c : Cfg) (n : Nibble) (rs en : Bool) {j : Nat} (hj : j < 8) :
    (fmt c n rs en).getLsbD j = ((decide (4 ≤ j) && n.getLsbD (j - 4)) || (decide (j = c.blBit) && c.blOn) ||
      (decide (j = c.rsBit) && rs) || (decide (j = c.enBit) && en)) := by
  rw [fmt, BitVec.getLsbD_or, BitVec.getLsbD_or, BitVec.getLsbD_or, getLsbD_flagAt _ hj, getLsbD_flagAt _ hj,
    getLsbD_flagAt _ hj, BitVec.getLsbD_shiftLeft, BitVec.getLsbD_setWidth]
  by_cases h : j < 4
  · simp [h, show ¬ 4 ≤ j by omega]
  · simp [h, hj, show 4 ≤ j by omega, show j - 4 < 8 by omega]

theorem Cfg.legal_iff (c : Cfg) : c.legal = true ↔ c.rsBit < 4 ∧ c.enBit < 4 ∧ c.blBit < 4 ∧
    c.rsBit ≠ c.enBit ∧ c.rsBit ≠ c.blBit ∧ c.enBit ≠ c.blBit ∧ c.lineCount = 2 := by
  simp [Cfg.legal, and_assoc]

/-- The E bit (R87). -/
theorem fmt_enBit {c : Cfg} (h : c.legal = true) (n : Nibble) (rs en : Bool) :
    (fmt c n rs en).getLsbD c.enBit = en := by
  obtain ⟨h1, h2, h3, h4, h5, h6, -⟩ := (Cfg.legal_iff c).1 h
  rw [getLsbD_fmt c n rs en (by omega)]
  simp [show ¬ 4 ≤ c.enBit by omega, h4.symm, h6]

/-- The RS bit (R86). -/
theorem fmt_rsBit {c : Cfg} (h : c.legal = true) (n : Nibble) (rs en : Bool) :
    (fmt c n rs en).getLsbD c.rsBit = rs := by
  obtain ⟨h1, h2, h3, h4, h5, h6, -⟩ := (Cfg.legal_iff c).1 h
  rw [getLsbD_fmt c n rs en (by omega)]
  simp [show ¬ 4 ≤ c.rsBit by omega, h4, h5]

/-- The backlight bit (R85). -/
theorem fmt_blBit {c : Cfg} (h : c.legal = true) (n : Nibble) (rs en : Bool) :
    (fmt c n rs en).getLsbD c.blBit = c.blOn := by
  obtain ⟨h1, h2, h3, h4, h5, h6, -⟩ := (Cfg.legal_iff c).1 h
  rw [getLsbD_fmt c n rs en (by omega)]
  simp [show ¬ 4 ≤ c.blBit by omega, h5.symm, h6.symm]

/-- The unused low bit (R88). -/
theorem fmt_unused (c : Cfg) (n : Nibble) (rs en : Bool) {j : Nat} (hj : j < 4) (h1 : j ≠ c.rsBit)
    (h2 : j ≠ c.enBit) (h3 : j ≠ c.blBit) : (fmt c n rs en).getLsbD j = false := by
  rw [getLsbD_fmt c n rs en (by omega)]
  simp [show ¬ 4 ≤ j by omega, h1, h2, h3]

/-- The data nibble (R67). -/
theorem highNibble_fmt {c : Cfg} (h : c.legal = true) (n : Nibble) (rs en : Bool) :
    highNibble (fmt c n rs en) = n := by
  obtain ⟨h1, h2, h3, -, -, -, -⟩ := (Cfg.legal_iff c).1 h
  apply BitVec.eq_of_getLsbD_eq
  intro i hi
  rw [highNibble, BitVec.getLsbD_extractLsb', getLsbD_fmt c n rs en (by omega)]
  simp [hi, show 4 + i ≠ c.blBit by omega, show 4 + i ≠ c.rsBit by omega, show 4 + i ≠ c.enBit by omega]

/-! The codes: the OR of the fields is their sum (30_encoding.md R70). -/

theorem codeEntry_sum : ∀ dir < 2, ∀ shift < 2, codeEntry dir shift = BitVec.ofNat 8 (4 + 2 * dir + shift) := by
  decide

theorem codeDispctl_sum : ∀ on < 2, ∀ cursor < 2, ∀ blink < 2,
    codeDispctl on cursor blink = BitVec.ofNat 8 (8 + 4 * on + 2 * cursor + blink) := by decide

theorem codeFuncset_sum : ∀ width < 2, ∀ lines < 2, ∀ font < 2,
    codeFuncset width lines font = BitVec.ofNat 8 (32 + 16 * width + 8 * lines + 4 * font) := by decide

theorem codeSetddram_sum : ∀ addr < 128, codeSetddram (BitVec.ofNat 7 addr) = BitVec.ofNat 8 (128 + addr) := by
  decide

/-- The address of a display position, modulo 128 (20_memory.md R47, 42_command_layer.md R112). -/
theorem cursorAddress_sum (row col : Nat) :
    cursorAddress row col = BitVec.ofNat 7 (((if row = 0 then 0 else 64) + col) % 128) := by
  apply BitVec.eq_of_toNat_eq
  unfold cursorAddress
  split
  · simp [BitVec.toNat_ofNat]
  · simp only [BitVec.toNat_setWidth, BitVec.toNat_add, BitVec.toNat_ofNat]
    omega

/-- A byte is its two halves joined. -/
theorem joinNibbles_halves (v : Byte) : joinNibbles (highNibble v) (lowNibble v) = v := by
  revert v; decide

theorem highNibble_join (h l : Nibble) : highNibble (joinNibbles h l) = h := by
  revert h l; decide

theorem lowNibble_join (h l : Nibble) : lowNibble (joinNibbles h l) = l := by
  revert h l; decide

/-- The formatter's inverse gives back what it packed (R90). -/
theorem unfmt_fmt {c : Cfg} (h : c.legal = true) (n : Nibble) (rs en : Bool) :
    unfmt c (fmt c n rs en) = .ok (n, rs, en) := by
  simp [unfmt, highNibble_fmt h, fmt_rsBit h, fmt_enBit h]

/-- Raising E is the OR with its bit (R73). -/
theorem fmt_raise (c : Cfg) (n : Nibble) (rs : Bool) :
    fmt c n rs true = fmt c n rs false ||| flagAt true c.enBit := by
  have h0 : flagAt false c.enBit = 0#8 := by simp [flagAt]
  simp only [fmt, h0, BitVec.or_zero]

/-- A triple of sends decodes to its nibble (R73). -/
theorem decodeTriple_encode {c : Cfg} (h : c.legal = true) (n : Nibble) (rs : Bool) :
    decodeTriple c (fmt c n rs false) (fmt c n rs true) (fmt c n rs false) = .ok (n, rs) := by
  simp [decodeTriple, unfmt_fmt h, fmt_raise c n rs]

end Sys2Proof.Machine
end

