-- ==== Sys2Proof/Laws/Observer.lean ====
section
/-! SUPPORT. What the traces of the block do to the reference observer: one nibble latches once, one byte sent to a controller
in step is delivered once, and INIT brings the controller from power-up into step. -/

namespace Sys2Proof.Machine

/-- No timing rule is broken and no time is owed. -/
def Ctl.calm (k : Ctl) : Prop := k.late = false ∧ k.owed ≤ k.waited

theorem calm_not_owed {k : Ctl} (hk : k.calm) : decide (k.waited < k.owed) = false :=
  decide_eq_false (Nat.not_lt.2 hk.2)

theorem time_of_edge {k : Ctl} (hw : 500 ≤ k.waited) : decide (k.waited < WaitName.tEP.micros) = false :=
  decide_eq_false (Nat.not_lt.2 hw)

/-- A send with E low before and after it delivers nothing (20_memory.md R52). -/
theorem observe_low {c : Cfg} {p q : Byte} {k : Ctl} (hp : p.getLsbD c.enBit = false)
    (hq : q.getLsbD c.enBit = false) (hk : k.calm) : k.observe c p q = k.restart false := by
  simp [Ctl.observe, tooEarly, hp, hq, hk.1, calm_not_owed hk]

/-- A rising edge delivers nothing (R56). -/
theorem observe_rise {c : Cfg} {p q : Byte} {k : Ctl} (hp : p.getLsbD c.enBit = false)
    (hq : q.getLsbD c.enBit = true) (hk : k.calm) (hw : 500 ≤ k.waited) : k.observe c p q = k.restart false := by
  simp [Ctl.observe, tooEarly, hp, hq, hk.1, calm_not_owed hk, time_of_edge hw]

/-- A falling edge latches the nibble and the register select of the new byte (R56). -/
theorem observe_fall {c : Cfg} {p q : Byte} {k : Ctl} (hp : p.getLsbD c.enBit = true)
    (hq : q.getLsbD c.enBit = false) (hk : k.calm) (hw : 500 ≤ k.waited) :
    k.observe c p q = latch (highNibble q) (q.getLsbD c.rsBit) (k.restart false) := by
  simp [Ctl.observe, tooEarly, hp, hq, hk.1, calm_not_owed hk, time_of_edge hw]

/-- A wait with no latch of 0x3 pending only lets time pass. -/
theorem passed_idle (t : WaitName) {k : Ctl} (h : k.pend3 = false) :
    k.passed t = { k with waited := k.waited + t.micros } := by
  simp [Ctl.passed, h]

/-- One nibble sent with E low before it and no time owed is latched once (20_memory.md R56). -/
theorem seen_nibble {c : Cfg} (hc : c.legal = true) (n : Nibble) (rs : Bool) {p : Byte} {k : Ctl}
    (hp : p.getLsbD c.enBit = false) (hk : k.calm) :
    seen c (nibbleTrace c n rs) (p, k) = (fmt c n rs false, latch n rs (k.restart false)) := by
  have r0 : (k.restart false).pend3 = false := rfl
  have h1 := observe_low hp (fmt_enBit hc n rs false) hk
  have h2 : ((k.restart false).passed .tEP).observe c (fmt c n rs false) (fmt c n rs true) = k.restart false := by
    rw [passed_idle .tEP r0,
      observe_rise (fmt_enBit hc n rs false) (fmt_enBit hc n rs true) ⟨rfl, Nat.zero_le _⟩ (Nat.le_refl 500)]
    rfl
  have h3 : ((k.restart false).passed .tEP).observe c (fmt c n rs true) (fmt c n rs false) =
      latch n rs (k.restart false) := by
    rw [passed_idle .tEP r0,
      observe_fall (fmt_enBit hc n rs true) (fmt_enBit hc n rs false) ⟨rfl, Nat.zero_le _⟩ (Nat.le_refl 500),
      highNibble_fmt hc, fmt_rsBit hc]
    rfl
  simp only [nibbleTrace, sendOk, seen, h1, h2, h3]

theorem count3_calm {n : Nibble} {rs : Bool} {k : Ctl} (h : k.calm) : (count3 n rs k).calm := by
  unfold count3 Ctl.calm at *; split <;> exact h

/-- The observer between deliveries: `a` and `b` agree in everything the controller shows. -/
structure SameShown (a b : Ctl) : Prop where
  regs : a.regs = b.regs
  ddram : a.ddram = b.ddram
  era : a.era = b.era
  draws : a.draws = b.draws

theorem latch_hi {n : Nibble} {rs : Bool} {k : Ctl} (hm : k.mode = .m4) (hh : k.half = .hi) :
    latch n rs k = count3 n rs { k with hi := n, half := .lo } := by
  simp only [latch, latchM4, hm, hh]

theorem latch_lo {n : Nibble} {rs : Bool} {k : Ctl} (hm : k.mode = .m4) (hh : k.half = .lo) :
    latch n rs k = count3 n rs (deliver rs (joinNibbles k.hi n) { k with half := .hi }) := by
  simp only [latch, latchM4, hm, hh]

/-- Counting latches changes nothing but the count. -/
theorem count3_fields (n : Nibble) (rs : Bool) (k : Ctl) :
    SameShown (count3 n rs k) k ∧ (count3 n rs k).mode = k.mode ∧ (count3 n rs k).half = k.half ∧
      (count3 n rs k).hi = k.hi ∧ (count3 n rs k).late = k.late ∧ (count3 n rs k).owed = k.owed ∧
      (count3 n rs k).waited = k.waited := by
  unfold count3; split <;> exact ⟨⟨rfl, rfl, rfl, rfl⟩, rfl, rfl, rfl, rfl, rfl, rfl⟩

/-- One byte sent to a controller in step is delivered once (R56, R59). -/
theorem seen_byte {c : Cfg} (hc : c.legal = true) (v : Byte) (rs : Bool) {p : Byte} {k : Ctl}
    (hp : p.getLsbD c.enBit = false) (hk : k.calm) (hm : k.mode = .m4) (hh : k.half = .hi) :
    ∃ j : Ctl, seen c (byteTrace c v rs) (p, k) =
        (fmt c (lowNibble v) rs false, count3 (lowNibble v) rs (deliver rs v j)) ∧
      SameShown j k ∧ j.mode = .m4 ∧ j.half = .hi ∧ j.late = false ∧ j.owed = 0 ∧ j.waited = 0 := by
  have e : byteTrace c v rs = nibbleTrace c (highNibble v) rs ++ nibbleTrace c (lowNibble v) rs := rfl
  obtain ⟨hs, fm, fh, fi, fl, fo, fw⟩ := count3_fields (highNibble v) rs
    { k.restart false with hi := highNibble v, half := .lo }
  generalize hK : count3 (highNibble v) rs { k.restart false with hi := highNibble v, half := .lo } = K at *
  have hj : joinNibbles (K.restart false).hi (lowNibble v) = v :=
    (congrArg (joinNibbles · (lowNibble v)) fi).trans (joinNibbles_halves v)
  rw [e, seen_append, seen_nibble hc _ rs hp hk, latch_hi (k := k.restart false) hm hh, hK,
    seen_nibble hc _ rs (fmt_enBit hc _ rs false) (hK ▸ count3_calm ⟨rfl, Nat.le_refl _⟩),
    latch_lo (k := K.restart false) (fm.trans hm) fh, hj]
  exact ⟨_, rfl, ⟨hs.regs, hs.ddram, hs.era, hs.draws⟩, fm.trans hm, rfl, rfl, rfl, rfl⟩

theorem shown_passed (t : WaitName) (k : Ctl) :
    SameShown (k.passed t) k ∧ (k.passed t).half = k.half ∧ (k.passed t).late = k.late ∧
      (k.passed t).owed = k.owed ∧ (k.passed t).waited = k.waited + t.micros := by
  unfold Ctl.passed; simp only; split <;> exact ⟨⟨rfl, rfl, rfl, rfl⟩, rfl, rfl, rfl, rfl⟩

/-- A wait shorter than T_INIT3 counts no latch of 0x3. -/
theorem passed_mode {t : WaitName} {k : Ctl} (h : k.waited + t.micros < 5000) : (k.passed t).mode = k.mode := by
  have : ¬ (WaitName.tINIT3.micros ≤ k.waited + t.micros) := by simp only [WaitName.micros] at *; omega
  simp [Ctl.passed, this]

end Sys2Proof.Machine
end

