-- ==== Sys2Proof/Laws/Step.lean ====
section
/-! SUPPORT. What a step can do, said once: the inversion lemmas of an operation of the port and of a step of an idle block,
and what every operation keeps. -/

namespace Sys2Proof.Machine

/-- Every form of the port is one operation with a body of its own. -/
theorem exec_onPort (i : Instr) (h : i.onPort = true) :
    ∃ body, (∀ s, exec i s = runOperation i body s) ∧ (i = .init → body = initBody) := by
  cases i <;> simp only [Instr.onPort, reduceCtorEq] at h <;> exact ⟨_, fun s => rfl, by simp⟩

/-- An error ends the operation: nothing of it is left. -/
theorem raise_idle (kind : BusKind) (s : State) : (s.raise kind).op = none ∧ (s.raise kind).rest = [] ∧
    (s.raise kind).pc = Pc.zero := by
  unfold State.raise; split <;> exact ⟨rfl, rfl, rfl⟩

/-- Statements that an error ended leave the block idle. -/
theorem runActs_ended {acts : List Act} {s t : State} (h : runActs acts s = .ended t) :
    t.op = none ∧ t.rest = [] ∧ t.pc = Pc.zero := by
  induction acts generalizing s with
  | nil => simp [runActs] at h
  | cons a acts ih =>
    cases a with
    | send n rs en ph =>
      simp only [runActs] at h
      split at h
      · exact ih h
      · cases h; exact raise_idle _ _
    | wait w => exact ih h
    | nib k => exact ih h

/-- Statements that went through keep the operation and the rest of its body. -/
theorem runActs_going {acts : List Act} {s t : State} (h : runActs acts s = .going t) :
    t.op = s.op ∧ t.rest = s.rest := by
  induction acts generalizing s with
  | nil => cases h; exact ⟨rfl, rfl⟩
  | cons a acts ih =>
    cases a with
    | send n rs en ph =>
      simp only [runActs] at h
      split at h
      · simpa using ih h
      · simp at h
    | wait w => simpa using ih h
    | nib k => simpa using ih h

/-- A body that has run leaves the block idle. -/
theorem runMicros_idle (ms : List Micro) (s : State) :
    (runMicros ms s).op = none ∧ (runMicros ms s).rest = [] ∧ (runMicros ms s).pc = Pc.zero := by
  induction ms generalizing s with
  | nil => exact ⟨rfl, rfl, rfl⟩
  | cons m ms ih =>
    simp only [runMicros]
    split
    · exact ih _
    · next h => exact runActs_ended h

/-- After the running operation has ended the block is idle. -/
theorem drain_idle (s : State) : s.drain.op = none := by
  unfold State.drain
  split
  · assumption
  · exact (runMicros_idle _ _).1

/-- An operation that answers a next state in an idle block was admitted, and has run its body. -/
theorem runOperation_next {i : Instr} {body : List Micro} {s t : State} (ho : s.op = none)
    (h : runOperation i body s = .next t) :
    i.wellFormed = true ∧ IdleIn (admittedIn i) s ∧ t = runMicros body (s.start i body) := by
  unfold runOperation at h
  rw [drain_of_idle ho] at h
  split at h
  · simp at h
  · next hr =>
    unfold refusal? at hr
    split at hr
    · simp at hr
    · split at hr
      · simp at hr
      · split at hr
        · next h1 h2 h3 => exact ⟨by simpa using h1, ⟨ho, h3, by simpa using h2⟩, by cases h; rfl⟩
        · simp at hr

/-- A step of an idle block does nothing or runs the operation the host offered. -/
theorem step_of_idle {s t : State} (ho : s.op = none) (hr : s.rest = []) (h : step s = .next t) :
    t = s ∨ ∃ i os, i.onPort = true ∧ exec i { s with offers := os } = .next t := by
  have key : ∀ (i : Instr) (os : List Offer), fetch s = offered i { s with offers := os } →
      ∃ i os, i.onPort = true ∧ exec i { s with offers := os } = .next t := by
    intro i os he
    unfold step at h
    rw [he, offered] at h
    by_cases hp : i.onPort = true
    · rw [if_pos hp] at h; exact ⟨i, os, hp, h⟩
    · rw [if_neg hp] at h; simp at h
  rcases hof : s.offers with _ | ⟨o, os⟩
  · left
    simp only [step, fetch, hr, ho, hof] at h
    cases h; rfl
  · right
    have hf : fetch s = takeOffer o { s with offers := os } := by simp only [fetch, hr, ho, hof]
    cases o with
    | read => simp [step, hf, takeOffer] at h
    | op i => exact key i os hf
    | word nbits w =>
      cases hd : decodeTableWord nbits w with
      | none => simp [step, hf, takeOffer, hd] at h
      | some i => exact key i os (by simpa [takeOffer, hd] using hf)

/-- A step that answers a next state is the first of a run. -/
theorem run_of_step {M : Host.Core} {n : Nat} {s t : M.State} (h : M.step s = .next t) :
    M.run (n + 1) s = M.run n t := by simp [Host.Core.run, h]

/-! The canonical form of the DDRAM. -/

theorem seen_wf {c : Cfg} {tr : List Event} {x : Byte × Ctl} (h : x.2.ddram.wf) : (seen c tr x).2.ddram.wf := by
  induction tr generalizing x with
  | nil => exact h
  | cons e tr ih =>
    cases e with
    | send d b r => exact ih (x := (b, x.2.observe c x.1 b)) (Ctl.observe_wf h c x.1 b)
    | wait t => exact ih (x := (x.1, x.2.passed t)) (by rw [Ctl.passed_ddram]; exact h)

theorem Advance.wf {n : Nat} {tr : List Event} {s t : State} (a : Advance n tr s t) (h : s.ctl.ddram.wf) :
    t.ctl.ddram.wf := by
  rw [a.ctl]; exact seen_wf (x := (s.port, s.ctl)) h

theorem sent_wf {b : Byte} {s : State} (h : s.ctl.ddram.wf) : (s.sent b).ctl.ddram.wf := by
  unfold State.sent; split
  · exact Ctl.observe_wf h _ _ _
  · exact h

theorem raise_wf {kind : BusKind} {s : State} (h : s.ctl.ddram.wf) : (s.raise kind).ctl.ddram.wf := by
  unfold State.raise; split <;> exact h

/-! What every operation emits. -/

/-- The configuration is kept, and every event emitted is a wait or the send of an ExpanderByte to DEV_ADDR. -/
def Emits (s t : State) : Prop :=
  t.cfg = s.cfg ∧ ∃ new, t.trace = s.trace ++ new ∧ ∀ dev b r, Event.send dev b r ∈ new →
    dev = s.cfg.devAddr ∧ ∃ n rs en, b = fmt s.cfg n rs en

theorem Emits.of_same {s t : State} (hc : t.cfg = s.cfg) (ht : t.trace = s.trace) : Emits s t :=
  ⟨hc, [], by simp [ht], by simp⟩

theorem Emits.trans {s t u : State} (h : Emits s t) (g : Emits t u) : Emits s u := by
  obtain ⟨hc, a, ha, hs⟩ := h
  obtain ⟨gc, b, hb, gs⟩ := g
  refine ⟨gc.trans hc, a ++ b, by simp [hb, ha], fun dev x r hx => ?_⟩
  rcases List.mem_append.1 hx with hx | hx
  · exact hs dev x r hx
  · rw [← hc]; exact gs dev x r hx

theorem emits_sent (n : Nibble) (rs en : Bool) (s : State) : Emits s (s.sent (fmt s.cfg n rs en)) := by
  refine ⟨by simp, _, by rw [State.sent_trace], fun dev b r h => ?_⟩
  rw [List.mem_singleton] at h
  cases h
  exact ⟨rfl, n, rs, en, rfl⟩

theorem emits_waits (t : WaitName) (s : State) : Emits s (s.waits t) := ⟨rfl, [.wait t], rfl, by simp⟩

theorem emits_raise (kind : BusKind) (s : State) : Emits s (s.raise kind) := by
  unfold State.raise; split <;> exact .of_same rfl rfl

theorem runActs_emits (acts : List Act) (s : State) : Emits s (runActs acts s).state := by
  induction acts generalizing s with
  | nil => exact .of_same rfl rfl
  | cons a acts ih =>
    cases a with
    | send n rs en ph =>
      simp only [runActs]
      split
      · exact (emits_sent n rs en s).trans (.trans (.of_same rfl rfl) (ih _))
      · exact (emits_sent n rs en s).trans (emits_raise _ _)
    | wait w => exact (emits_waits w s).trans (ih _)
    | nib k => exact .trans (t := s.setNib k) (.of_same rfl rfl) (ih _)

theorem runMicros_emits (ms : List Micro) (s : State) : Emits s (runMicros ms s) := by
  induction ms generalizing s with
  | nil => exact .of_same rfl rfl
  | cons m ms ih =>
    have h := (Emits.of_same (s := s) (t := s.enter m ms) rfl rfl).trans (runActs_emits (Prim.acts m.prim) _)
    simp only [runMicros, runPrim]
    split
    · next he => rw [he] at h; exact h.trans (ih _)
    · next he => rw [he] at h; exact h

theorem drain_emits (s : State) : Emits s s.drain := by
  unfold State.drain; split
  · exact .of_same rfl rfl
  · exact runMicros_emits _ _

theorem exec_emits {i : Instr} {s t : State} (h : exec i s = .next t) : Emits s t := by
  have op : ∀ body, runOperation i body s = .next t → Emits s t := by
    intro body h
    unfold runOperation at h
    split at h
    · simp at h
    · cases h
      exact (drain_emits s).trans (.trans (t := s.drain.start i body) (.of_same rfl rfl) (runMicros_emits _ _))
  have prim : ∀ p, runPrimitive i p s = .next t → Emits s t := by
    intro p h
    unfold runPrimitive at h
    split at h
    · simp at h
    · split at h
      · simp at h
      · cases h; exact runActs_emits _ _
  cases i <;> first | exact op _ h | exact prim _ h

/-- The fetch keeps the configuration and the trace. -/
theorem fetch_run {i : Instr} {s t : State} (h : fetch s = .run i t) : t.cfg = s.cfg ∧ t.trace = s.trace := by
  have key : ∀ (j : Instr) (u : State), offered j u = .run i t → t = u := by
    intro j u h
    unfold offered at h
    split at h
    · cases h; rfl
    · simp at h
  unfold fetch at h
  split at h
  · cases h; exact ⟨rfl, rfl⟩
  · split at h
    · simp at h
    · split at h
      · simp at h
      · unfold takeOffer at h
        split at h
        · simp at h
        · rw [key _ _ h]; exact ⟨rfl, rfl⟩
        · split at h
          · rw [key _ _ h]; exact ⟨rfl, rfl⟩
          · simp at h

/-- What every step emits. -/
theorem step_emits {s t : State} (h : step s = .next t) : Emits s t := by
  unfold step at h
  split at h
  · cases h; exact .of_same rfl rfl
  · cases h; exact .of_same rfl rfl
  · next i u hf =>
    obtain ⟨hc, ht⟩ := fetch_run hf
    exact (Emits.of_same hc ht).trans (exec_emits h)
  · simp at h

/-- INIT can fail only from step 2 on (10_state.md R25). -/
theorem initStepOf_ge (k : Nat) : 2 ≤ initStepOf k ∧ initStepOf k ≠ 0 := by
  unfold initStepOf
  repeat' split
  all_goals decide

end Sys2Proof.Machine
end

