-- ==== Sys2Proof/Laws/Command.lean ====
section
/-! SUPPORT. What a command does, said once: the byte transfer it is, and what that transfer leaves at a controller in step. -/

namespace Sys2Proof.Machine

/-- A command is one byte transfer of its code, CLEAR and HOME with the T_CLR wait after it (42_command_layer.md R100). -/
theorem exec_command (i : Instr) (h : i.isCommand = true) : ∃ rs v body post, encodeCode i = some (rs, v) ∧
    (∀ s, exec i s = runOperation i body s) ∧ microsSends body = 6 ∧
    (∀ c, microsTrace c body = byteTrace c v rs ++ post) ∧
    ((post = [] ∧ i ≠ .clear ∧ i ≠ .home) ∨ post = [.wait .tCLR] ∧ (i = .clear ∨ i = .home)) := by
  cases i <;> simp only [Instr.isCommand, reduceCtorEq] at h
  case clear => exact ⟨_, _, _, [.wait .tCLR], rfl, fun _ => rfl, rfl, fun _ => rfl, by simp⟩
  case home => exact ⟨_, _, _, [.wait .tCLR], rfl, fun _ => rfl, rfl, fun _ => rfl, by simp⟩
  all_goals exact ⟨_, _, _, [], rfl, fun _ => rfl, rfl, fun _ => rfl, by simp⟩

/-- The observer `k` in step with the block, with no time passed and none owed: what a byte is delivered to. -/
structure Fresh (j : Ctl) (k : Ctl) : Prop where
  shown : SameShown j k
  mode : j.mode = .m4
  half : j.half = .hi
  late : j.late = false
  owed : j.owed = 0
  waited : j.waited = 0

/-- The cells shown are the same. -/
theorem SameShown.cell {a b : Ctl} (h : SameShown a b) (x : Addr) : a.cell x = b.cell x := by
  simp only [Ctl.cell, h.ddram, h.era]

/-- A command on a fault-free bus at a controller in step delivers its code there once (20_memory.md R59). -/
theorem command_ctl {i : Instr} {s : State} (hi : i.isCommand = true) (hw : i.wellFormed = true)
    (h : IdleIn .ready s) (hs : InStep s) (hf : FaultFree 6 s) :
    ∃ t rs v j, exec i s = .next t ∧ EndedOk .ready s t ∧ KeepsHostSide s t ∧ encodeCode i = some (rs, v) ∧
      Fresh j s.ctl ∧
      t.port = fmt s.cfg (lowNibble v) rs false ∧ t.answers = s.answers.drop 6 ∧ t.sends = s.sends + 6 ∧
      SameShown t.ctl (deliver rs v j) ∧ t.ctl.mode = (deliver rs v j).mode ∧ t.ctl.half = (deliver rs v j).half ∧
      t.ctl.late = (deliver rs v j).late ∧ t.ctl.owed = (deliver rs v j).owed ∧
      t.ctl.waited = (deliver rs v j).waited + (if i = .clear ∨ i = .home then 2000 else 0) := by
  obtain ⟨rs, v, body, post, he, hb, h6, htr, hpost⟩ := exec_command i hi
  have h0 : i ≠ .init := by rintro rfl; simp [Instr.isCommand] at hi
  have h1 : i ≠ .detach := by rintro rfl; simp [Instr.isCommand] at hi
  obtain ⟨t, ht, hend, hk, -, -, hsn, han, hseen⟩ :=
    runOperation_ok (body := body) hw (by simpa [admittedIn, h0] using h) (by rw [h6]; exact hf)
  obtain ⟨hm, hh, hl, ho, hE⟩ := hs
  obtain ⟨j, hj, hsh, jm, jh, jl, jo, jw⟩ := seen_byte h.2.2 v rs hE ⟨hl, ho⟩ hm hh
  rw [htr, seen_append, hj] at hseen
  obtain ⟨hs, fm, fh, fi, fl, fo, fw⟩ := count3_fields (lowNibble v) rs (deliver rs v j)
  refine ⟨t, rs, v, j, (hb s).trans ht, by simpa [lifeAtEnd, h0, h1, h.2.1] using hend, hk, he,
    ⟨hsh, jm, jh, jl, jo, jw⟩, ?_⟩
  have hwait : (deliver rs v j).waited = 0 := by
    rw [← jw]; unfold deliver; split
    · unfold deliverData; split <;> rfl
    · unfold deliverCode; repeat' split
      all_goals rfl
  rcases hpost with ⟨rfl, hc⟩ | ⟨rfl, hc⟩
  · simp only [seen, Prod.mk.injEq] at hseen
    obtain ⟨hp, hk⟩ := hseen
    rw [hk]
    exact ⟨hp, by rw [han, h6], by rw [hsn, h6], hs, fm, fh, fl, fo, by simp [fw, hc]⟩
  · simp only [seen, Prod.mk.injEq] at hseen
    obtain ⟨hp, hk⟩ := hseen
    obtain ⟨qs, qh, ql, qo, qw⟩ := shown_passed .tCLR (count3 (lowNibble v) rs (deliver rs v j))
    have qm := passed_mode (t := .tCLR) (k := count3 (lowNibble v) rs (deliver rs v j))
      (by rw [fw, hwait]; decide)
    rw [hk]
    exact ⟨hp, by rw [han, h6], by rw [hsn, h6],
      ⟨qs.regs.trans hs.regs, qs.ddram.trans hs.ddram, qs.era.trans hs.era, qs.draws.trans hs.draws⟩,
      qm.trans fm, qh.trans fh, ql.trans fl, qo.trans fo, by rw [qw, fw, if_pos hc]; rfl⟩

end Sys2Proof.Machine
end

