-- ==== Sys2Proof/Laws/Deliver.lean ====
section
/-! SUPPORT. What each delivered code does to the observer (20_memory.md R60), said once per command. -/

namespace Sys2Proof.Machine

/-- An entry-mode code sets `id` and `sh` (20_memory.md R60). -/
theorem deliver_entry (d s : Nat) (hd : d < 2) (hs : s < 2) (k : Ctl) : deliverCode (codeEntry d s) k =
    { k with regs := { k.regs with id := decide (d = 1), sh := decide (s = 1) } } := by
  have : ∀ d < 2, ∀ s < 2, codeEntry d s ≠ 1#8 ∧ codeEntry d s ≠ 2#8 ∧
      codeEntry d s &&& 0xFC#8 = 4#8 ∧ (codeEntry d s).getLsbD 1 = decide (d = 1) ∧
      (codeEntry d s).getLsbD 0 = decide (s = 1) := by decide
  obtain ⟨h1, h2, h3, h4, h5⟩ := this d hd s hs
  rw [deliverCode, if_neg h1, if_neg h2, if_pos h3]; simp only [setEntryMode, h4, h5]

/-- A display-control code sets `disp`, `cur` and `blink` (R60). -/
theorem deliver_dispctl (d s b : Nat) (hd : d < 2) (hs : s < 2) (hb : b < 2) (k : Ctl) :
    deliverCode (codeDispctl d s b) k =
      { k with regs := { k.regs with disp := decide (d = 1), cur := decide (s = 1), blink := decide (b = 1) } } := by
  have h : ∀ d < 2, ∀ s < 2, ∀ b < 2, codeDispctl d s b ≠ 1#8 ∧ codeDispctl d s b ≠ 2#8 ∧
      codeDispctl d s b &&& 0xFC#8 ≠ 4#8 ∧ codeDispctl d s b &&& 0xF8#8 = 8#8 := by decide
  have g : ∀ d < 2, ∀ s < 2, ∀ b < 2, (codeDispctl d s b).getLsbD 2 = decide (d = 1) ∧
      (codeDispctl d s b).getLsbD 1 = decide (s = 1) ∧ (codeDispctl d s b).getLsbD 0 = decide (b = 1) := by decide
  obtain ⟨h1, h2, h3, h4⟩ := h d hd s hs b hb
  obtain ⟨h5, h6, h7⟩ := g d hd s hs b hb
  rw [deliverCode, if_neg h1, if_neg h2, if_neg h3, if_pos h4]; simp only [setDisplayControl, h5, h6, h7]

/-- The class of a function-set code (30_encoding.md R68): bits 1..0 are 00, so it is one that an operation generates. -/
theorem funcset_class (w s b : Nat) (hw : w < 2) (hs : s < 2) (hb : b < 2) : codeFuncset w s b ≠ 1#8 ∧
    codeFuncset w s b ≠ 2#8 ∧ codeFuncset w s b &&& 0xFC#8 ≠ 4#8 ∧ codeFuncset w s b &&& 0xF8#8 ≠ 8#8 ∧
    codeFuncset w s b &&& 0xE0#8 = 0x20#8 ∧ codeFuncset w s b &&& 0x03#8 = 0x00#8 := by
  have h : ∀ w < 2, ∀ s < 2, ∀ b < 2, codeFuncset w s b ≠ 1#8 ∧ codeFuncset w s b ≠ 2#8 ∧
      codeFuncset w s b &&& 0xFC#8 ≠ 4#8 := by decide
  have g : ∀ w < 2, ∀ s < 2, ∀ b < 2, codeFuncset w s b &&& 0xF8#8 ≠ 8#8 ∧
      codeFuncset w s b &&& 0xE0#8 = 0x20#8 ∧ codeFuncset w s b &&& 0x03#8 = 0x00#8 := by decide
  obtain ⟨h1, h2, h3⟩ := h w hw s hs b hb
  exact ⟨h1, h2, h3, g w hw s hs b hb⟩

/-- The fields of a function-set code (R68). -/
theorem funcset_fields (w s b : Nat) (hw : w < 2) (hs : s < 2) (hb : b < 2) :
    (codeFuncset w s b).getLsbD 4 = decide (w = 1) ∧
    codeFuncset w s b = BitVec.ofNat 8 (32 + 16 * w + 8 * s + 4 * b) := by
  have g : ∀ w < 2, ∀ s < 2, ∀ b < 2, (codeFuncset w s b).getLsbD 4 = decide (w = 1) ∧
      codeFuncset w s b = BitVec.ofNat 8 (32 + 16 * w + 8 * s + 4 * b) := by decide
  exact g w hw s hs b hb

/-- A function-set code for the 4-bit bus is kept as `fn` (R60). -/
theorem deliver_funcset0 (s b : Nat) (hs : s < 2) (hb : b < 2) (k : Ctl) : deliverCode (codeFuncset 0 s b) k =
    { k with regs := { k.regs with fn := BitVec.ofNat 8 (32 + 8 * s + 4 * b) } } := by
  obtain ⟨h1, h2, h3, h4, h5, h8⟩ := funcset_class 0 s b (by decide) hs hb
  obtain ⟨h6, h7⟩ := funcset_fields 0 s b (by decide) hs hb
  rw [deliverCode, if_neg h1, if_neg h2, if_neg h3, if_neg h4, if_pos h5, if_neg (by rw [h6, h8]; simp)]
  simp [setFunction, h7]

/-- A function-set code for the 8-bit bus loses the observer in 4-bit mode (42_command_layer.md R109). -/
theorem deliver_funcset1 (s b : Nat) (hs : s < 2) (hb : b < 2) (k : Ctl) (hm : k.mode = .m4) :
    deliverCode (codeFuncset 1 s b) k = k.lose := by
  obtain ⟨h1, h2, h3, h4, h5, -⟩ := funcset_class 1 s b (by decide) hs hb
  have h6 := (funcset_fields 1 s b (by decide) hs hb).1
  rw [deliverCode, if_neg h1, if_neg h2, if_neg h3, if_neg h4, if_pos h5, if_pos (.inr ⟨hm, by rw [h6]; rfl⟩)]

/-- An address code sets `ac` (R60). -/
theorem deliver_addr (a : Addr) (k : Ctl) : deliverCode (codeSetddram a) k =
    { k with regs := { k.regs with ac := a } } := by
  have : ∀ a, codeSetddram a ≠ 1#8 ∧ codeSetddram a ≠ 2#8 ∧ codeSetddram a &&& 0xFC#8 ≠ 4#8 ∧
      codeSetddram a &&& 0xF8#8 ≠ 8#8 ∧ codeSetddram a &&& 0xE0#8 ≠ 0x20#8 ∧
      (codeSetddram a).getLsbD 7 = true ∧ (codeSetddram a).setWidth 7 = a := by decide
  obtain ⟨h1, h2, h3, h4, h5, h6, h7⟩ := this a
  rw [deliverCode, if_neg h1, if_neg h2, if_neg h3, if_neg h4, if_neg h5, if_pos h6]; simp only [setAddress, h7]

end Sys2Proof.Machine
end

