-- ==== Sys2Proof/Laws/PerInstr.lean ====
section
/-! SUPPORT. One fact about every instruction as syntax, with one lemma per constructor: the form a decoder recovers from what
an operation emits (30_encoding.md R77) is well formed where the operation is, and encodes to the same transfer. -/

namespace Sys2Proof.Laws.SameTransfer

/-- The recovered form is well formed and has the same register select and code (R77). -/
def Statement (i : Instr) : Prop :=
  i.wellFormed = true → (recovered i).wellFormed = true ∧ encodeCode (recovered i) = encodeCode i

theorem init : Statement .init := fun h => ⟨h, rfl⟩

theorem clear : Statement .clear := fun h => ⟨h, rfl⟩

theorem home : Statement .home := fun h => ⟨h, rfl⟩

theorem entry (dir shift : Nat) : Statement (.entry dir shift) := fun h => ⟨h, rfl⟩

theorem dispctl (on cursor blink : Nat) : Statement (.dispctl on cursor blink) := fun h => ⟨h, rfl⟩

theorem funcset (width lines font : Nat) : Statement (.funcset width lines font) := fun h => ⟨h, rfl⟩

theorem setddram (addr : Nat) : Statement (.setddram addr) := fun h => ⟨h, rfl⟩

theorem write (ch : Nat) : Statement (.write ch) := fun h => ⟨h, rfl⟩

/-- A `SETCURSOR` is emitted as the `SETDDRAM` of its address (R77, 42_command_layer.md R112). -/
theorem setcursor (row col : Nat) : Statement (.setcursor row col) := fun _ =>
  ⟨decide_eq_true (Nat.mod_lt _ (by decide)), by
    rw [recovered, encodeCode, encodeCode, Machine.codeSetcursor, Machine.cursorAddress_sum]⟩

theorem detach : Statement .detach := fun h => ⟨h, rfl⟩

theorem nibble (n rs : Nat) : Statement (.nibble n rs) := fun h => ⟨h, rfl⟩

theorem byte (v rs : Nat) : Statement (.byte v rs) := fun h => ⟨h, rfl⟩

theorem wait (t : WaitName) : Statement (.wait t) := fun h => ⟨h, rfl⟩

end Sys2Proof.Laws.SameTransfer
end

