-- ==== Sys2Proof/Machine/Pseudo.lean ====
section
/-! DEFINITION. The spec's way of writing operations (30_encoding.md R78) and its pseudo-operations (R79). -/

namespace Sys2Proof

/-- `PUTS` of a list of character codes: one `WRITE` each, left to right (R79). -/
def puts (chars : List Nat) : List Instr := chars.map .write

/-- `DISPLAY_OFF` (R79). -/
def displayOff : Instr := .dispctl 0 0 0

/-- `DISPLAY_ON` (R79). -/
def displayOn : Instr := .dispctl 1 0 0

/-- `REFRESH`: the deferred update's sequence of operations (R79). -/
def refresh (dateLine timeLine : List Nat) : List Instr :=
  [.clear, .setcursor 0 0] ++ puts dateLine ++ [.setcursor 1 0] ++ puts timeLine

/-- The name of a wait as a `WAIT` operand (41_protocol_encoder.md R98). -/
def WaitName.text : WaitName → String
  | .tEP => "T_EP"
  | .tCLR => "T_CLR"
  | .tINIT3 => "T_INIT3"
  | .tPWR => "T_PWR"

/-- A mnemonic and its operands in decimal, separated by commas (R78). -/
def spell (mnemonic : String) (operands : List Nat) : String :=
  match operands with
  | [] => mnemonic
  | _ => mnemonic ++ " " ++ String.intercalate ", " (operands.map toString)

/-- An operation in the spec's syntax (R78). -/
def Instr.text : Instr → String
  | .init => spell "INIT" []
  | .clear => spell "CLEAR" []
  | .home => spell "HOME" []
  | .entry dir shift => spell "ENTRY" [dir, shift]
  | .dispctl on cursor blink => spell "DISPCTL" [on, cursor, blink]
  | .funcset width lines font => spell "FUNCSET" [width, lines, font]
  | .setddram addr => spell "SETDDRAM" [addr]
  | .write ch => spell "WRITE" [ch]
  | .setcursor row col => spell "SETCURSOR" [row, col]
  | .detach => spell "DETACH" []
  | .nibble n rs => spell "NIBBLE" [n, rs]
  | .byte v rs => spell "BYTE" [v, rs]
  | .wait t => "WAIT " ++ t.text

end Sys2Proof
end

