-- ==== Sys2Proof/Machine/Assembler.lean ====
section
/-! DEFINITION. Reading operations written in the spec's way (30_encoding.md R78), the pseudo-operations of R79 among them: one
operation a line, mnemonic first, operands separated by commas, numbers in decimal or 0x hexadecimal, characters between
single quotes for their code, texts between double quotes, comments after a semicolon. -/

namespace Sys2Proof

/-- The parts of a line. -/
inductive Token where
  | word (cs : List Char)
  | char (c : Char)
  | text (cs : List Char)
  | comma
  deriving DecidableEq, Repr

/-- Where the reading of a line stands: between parts, inside a word or a text (its characters in reverse), after an opening
single quote, before the closing one. -/
inductive Reading where
  | between
  | inWord (acc : List Char)
  | inText (acc : List Char)
  | opened
  | closing (c : Char)
  deriving DecidableEq, Repr

/-- `'` -/
def singleQuote : Char := Char.ofNat 39

/-- `"` -/
def doubleQuote : Char := Char.ofNat 34

def isBlank (c : Char) : Bool := decide (c = ' ') || decide (c = Char.ofNat 9)

/-- The parts of a line, `none` where a quote is not closed. -/
def tokens : Reading → List Char → Option (List Token)
  | .between, [] => some []
  | .inWord acc, [] => some [.word acc.reverse]
  | .inText _, [] => none
  | .opened, [] => none
  | .closing _, [] => none
  | .between, c :: cs =>
    if c = ';' then some []
    else if isBlank c then tokens .between cs
    else if c = ',' then (tokens .between cs).map (Token.comma :: ·)
    else if c = singleQuote then tokens .opened cs
    else if c = doubleQuote then tokens (.inText []) cs
    else tokens (.inWord [c]) cs
  | .inWord acc, c :: cs =>
    if c = ';' then some [.word acc.reverse]
    else if isBlank c then (tokens .between cs).map (Token.word acc.reverse :: ·)
    else if c = ',' then (tokens .between cs).map (fun ts => .word acc.reverse :: .comma :: ts)
    else tokens (.inWord (c :: acc)) cs
  | .inText acc, c :: cs =>
    if c = doubleQuote then (tokens .between cs).map (Token.text acc.reverse :: ·) else tokens (.inText (c :: acc)) cs
  | .opened, c :: cs => tokens (.closing c) cs
  | .closing c, d :: cs => if d = singleQuote then (tokens .between cs).map (Token.char c :: ·) else none

/-- The value of a hexadecimal digit. -/
def digit? (c : Char) : Option Nat :=
  if '0' ≤ c ∧ c ≤ '9' then some (c.toNat - 48)
  else if 'a' ≤ c ∧ c ≤ 'f' then some (c.toNat - 87)
  else if 'A' ≤ c ∧ c ≤ 'F' then some (c.toNat - 55)
  else none

/-- Digits of a base, most significant first, after `acc`. -/
def digits (base : Nat) : Nat → List Char → Option Nat
  | acc, [] => some acc
  | acc, c :: cs =>
    match digit? c with
    | some d => if d < base then digits base (acc * base + d) cs else none
    | none => none

/-- A number in decimal or `0x` hexadecimal (R78). -/
def number? : List Char → Option Nat
  | [] => none
  | [c] => digits 10 0 [c]
  | [c, d] => digits 10 0 [c, d]
  | c :: d :: e :: cs => if c = '0' ∧ d = 'x' then digits 16 0 (e :: cs) else digits 10 0 (c :: d :: e :: cs)

/-- An operand as written: a value, a name of a wait, or a text of character codes. -/
inductive Operand where
  | value (n : Nat)
  | wait (t : WaitName)
  | text (codes : List Nat)
  deriving DecidableEq, Repr

/-- The waits a `WAIT` names (41_protocol_encoder.md R98). -/
def waitName? (w : String) : Option WaitName :=
  match w with
  | "T_EP" => some .tEP
  | "T_CLR" => some .tCLR
  | "T_INIT3" => some .tINIT3
  | "T_PWR" => some .tPWR
  | _ => none

/-- One operand. -/
def operand? : Token → Option Operand
  | .word cs =>
    match number? cs with
    | some n => some (.value n)
    | none => (waitName? (String.ofList cs)).map .wait
  | .char c => some (.value c.toNat)
  | .text cs => some (.text (cs.map Char.toNat))
  | .comma => none

/-- Operands separated by commas. -/
def operands? : List Token → Option (List Operand)
  | [] => some []
  | [t] => (operand? t).map fun o => [o]
  | t :: .comma :: u :: ts =>
    match operand? t, operands? (u :: ts) with
    | some o, some os => some (o :: os)
    | _, _ => none
  | _ => none

/-- The operations a mnemonic with operands stands for (R63, R64, R79); whether the operands are in range is for the port to
say (R65). -/
def operations? (mnemonic : String) (os : List Operand) : Option (List Instr) :=
  match mnemonic, os with
  | "INIT", [] => some [.init]
  | "CLEAR", [] => some [.clear]
  | "HOME", [] => some [.home]
  | "ENTRY", [.value d, .value s] => some [.entry d s]
  | "DISPCTL", [.value o, .value c, .value b] => some [.dispctl o c b]
  | "FUNCSET", [.value w, .value l, .value f] => some [.funcset w l f]
  | "SETDDRAM", [.value a] => some [.setddram a]
  | "WRITE", [.value ch] => some [.write ch]
  | "SETCURSOR", [.value r, .value c] => some [.setcursor r c]
  | "DETACH", [] => some [.detach]
  | "NIBBLE", [.value n, .value rs] => some [.nibble n rs]
  | "BYTE", [.value v, .value rs] => some [.byte v rs]
  | "WAIT", [.wait t] => some [.wait t]
  | "PUTS", [.text s] => some (puts s)
  | "DISPLAY_OFF", [] => some [displayOff]
  | "DISPLAY_ON", [] => some [displayOn]
  | "REFRESH", [.text d, .text t] => some (refresh d t)
  | _, _ => none

/-- One line: its operations, none for an empty line or a comment, `none` where it is no operation of the spec (R78). -/
def readLine (line : List Char) : Option (List Instr) :=
  match tokens .between line with
  | some [] => some []
  | some (.word m :: ts) =>
    match operands? ts with
    | some os => operations? (String.ofList m) os
    | none => none
  | _ => none

/-- A program, line by line. -/
def readProgram : List (List Char) → Option (List Instr)
  | [] => some []
  | l :: ls =>
    match readLine l, readProgram ls with
    | some is, some js => some (is ++ js)
    | _, _ => none

end Sys2Proof
end

