-- ==== Sys2Proof/Tests/Slice0.lean ====
section
/-! SUPPORT. The model's own tests: ill-formed operands, decoding of words written out from the spec, one step of each
instruction against the vectors of 95_test_vectors.md, and a witness for the hypotheses of every statement. Every expected
value is copied from the spec or worked out by hand from its rules. -/

namespace Sys2Proof.Tests

open Sys2Proof.Machine

/-! Small states: the default configuration of 95_test_vectors.md, BL_ON = 1. -/

def cfg : Cfg :=
  { devAddr := 0x27#7, blOn := true, lineWidth := .w16, lineCount := 2, rsBit := 0, enBit := 2, blBit := 3 }

/-- The registers at the end of program P1. -/
def regs : Regs :=
  { ac := 0x00#7, disp := true, cur := false, blink := false, id := true, sh := false, fn := 0x28#8 }

/-- The observer at the end of program P1, with no time owed. -/
def ctl : Ctl :=
  { mode := .m4, half := .hi, hi := 0x0#4, n3 := 0, pend3 := false, regs := regs, ddram := Memory.blank, era := 0,
    draws := 1, waited := 2000, owed := 0, late := false }

/-- An idle block in `life` whose coming sends get the answers `turns`. -/
def block (life : Life) (turns : List Turn) : State :=
  { cfg := cfg, life := life, op := none, pc := Pc.zero, status := .ok, errKind := none, errStep := 0,
    port := 0xC8#8, ctl := ctl, rest := [], offers := [], answers := turns, sends := 0, trace := [] }

/-- READY on a bus that answers the next twelve sends. -/
def ready : State := block .ready (List.replicate 12 .ok)

/-- The block while HOME runs: its byte is sent, its wait still to come. -/
def running : State :=
  { ready with
    op := some .home, rest := [{ step := 0, prim := .wait .tCLR }], pc := { step := 0, nib := 1, phase := 3 } }

/-- After attach: RESET, E high at the port, the controller in an unknown mode, T_PWR owed. -/
def fresh : State :=
  { block .reset (List.replicate 42 .ok) with
    port := 0xFF#8, ctl := { ctl with mode := .unknown, ddram := [], waited := 0, owed := 50000 } }

/-- `k` sends are answered, the next one fails without reaching the port. -/
def failAt (k : Nat) : List Turn := List.replicate k .ok ++ [.error .nack false]

/-- The state after an outcome, where there is one. -/
def after (o : Host.Outcome State Fault Refusal) : Option State :=
  match o with
  | .next t => some t
  | .fault _ => none
  | .refused _ => none

/-- Why an outcome is a refusal, where it is one. -/
def refusal (o : Host.Outcome State Fault Refusal) : Option Refusal :=
  match o with
  | .next _ => none
  | .fault _ => none
  | .refused r => some r

/-- The bytes an instruction sends from `s`. -/
def bytesSent (i : Instr) (s : State) : Option (List Byte) := (after (exec i s)).map fun t => bytesOf t.trace

/-- Status code, lifecycle state and error step after an instruction. -/
def result (i : Instr) (s : State) : Option (Nat × Life × Fin 9) :=
  (after (exec i s)).map fun t => (t.status.code, t.life, t.errStep)

/-! Ill-formed operands: every check of `wellFormed` refuses a term (30_encoding.md R65). -/

theorem test_illFormed_flags : (Instr.entry 2 0).wellFormed = false ∧ (Instr.entry 0 2).wellFormed = false ∧
    (Instr.dispctl 2 0 0).wellFormed = false ∧ (Instr.dispctl 0 2 0).wellFormed = false ∧
    (Instr.dispctl 0 0 2).wellFormed = false ∧ (Instr.funcset 2 0 0).wellFormed = false ∧
    (Instr.funcset 0 2 0).wellFormed = false ∧ (Instr.funcset 0 0 2).wellFormed = false := by decide

theorem test_illFormed_values : (Instr.setddram 0x80).wellFormed = false ∧ (Instr.write 256).wellFormed = false ∧
    (Instr.setcursor 2 0).wellFormed = false ∧ (Instr.setcursor 0 256).wellFormed = false ∧
    (Instr.nibble 16 0).wellFormed = false ∧ (Instr.nibble 0 2).wellFormed = false ∧
    (Instr.byte 256 0).wellFormed = false ∧ (Instr.byte 0 2).wellFormed = false := by decide

/-- The largest operands are in range. -/
theorem test_wellFormed_limits : (Instr.setddram 0x7F).wellFormed = true ∧ (Instr.write 0xFF).wellFormed = true ∧
    (Instr.setcursor 1 255).wellFormed = true ∧ (Instr.nibble 15 1).wellFormed = true ∧
    (Instr.byte 255 1).wellFormed = true ∧ (Instr.funcset 1 1 1).wellFormed = true := by decide

/-! Decoding: words written out bit by bit from R68 and R80, rs in bit 8 of a command, in bit 4 of a nibble. -/

theorem test_decode_clear : decodeTableWord 16 0b000000001 = some .clear := by decide

theorem test_decode_home : decodeTableWord 16 0b000000010 = some .home := by decide

theorem test_decode_entry : decodeTableWord 16 0b000000101 = some (.entry 0 1) := by decide

theorem test_decode_dispctl : decodeTableWord 16 0b000001100 = some (.dispctl 1 0 0) := by decide

theorem test_decode_funcset : decodeTableWord 16 0b000110100 = some (.funcset 1 0 1) := by decide

theorem test_decode_setddram : decodeTableWord 16 0b011100111 = some (.setddram 0x67) := by decide

theorem test_decode_write : decodeTableWord 16 0b100000001 = some (.write 0x01) := by decide

/-- `SETCURSOR 1, 3` is emitted as 0xC3, which decodes to the `SETDDRAM` of its address (R77, R81). -/
theorem test_decode_setcursor : decodeTableWord 16 0b011000011 = some (recovered (.setcursor 1 3)) ∧
    recovered (.setcursor 1 3) = .setddram 0x43 := by decide

theorem test_decode_nibble : decodeTableWord 8 0b10101 = some (.nibble 5 1) := by decide

/-- The command codes no operation generates, words too long, lengths of no row (R75, R80). -/
theorem test_decode_refuses : decodeTableWord 16 0b000000000 = none ∧ decodeTableWord 16 0b000000011 = none ∧
    decodeTableWord 16 0b000100001 = none ∧ decodeTableWord 16 0b001000000 = none ∧
    decodeTableWord 16 0b1000000001 = none ∧ decodeTableWord 8 0b100000 = none ∧ decodeTableWord 32 1 = none := by
  decide

/-- INIT has no word of its own: the sends of program P1, transcribed, decode to the list of E5. -/
theorem test_decode_init : decodeInitSends cfg
    [0x38#8, 0x3C#8, 0x38#8, 0x38#8, 0x3C#8, 0x38#8, 0x38#8, 0x3C#8, 0x38#8, 0x28#8, 0x2C#8, 0x28#8,
     0x28#8, 0x2C#8, 0x28#8, 0x88#8, 0x8C#8, 0x88#8, 0x08#8, 0x0C#8, 0x08#8, 0x88#8, 0x8C#8, 0x88#8,
     0x08#8, 0x0C#8, 0x08#8, 0x18#8, 0x1C#8, 0x18#8, 0x08#8, 0x0C#8, 0x08#8, 0x68#8, 0x6C#8, 0x68#8,
     0x08#8, 0x0C#8, 0x08#8, 0xC8#8, 0xCC#8, 0xC8#8] =
    .ok ([(0x3#4, false), (0x3#4, false), (0x3#4, false), (0x2#4, false)],
      [.funcset 0 1 0, .dispctl 0 0 0, .clear, .entry 1 0, .dispctl 1 0 0]) := by decide

/-- BYTE has no word of its own: the sends of `BYTE 0xA5, 1` (E2) carry the data byte 0xA5. -/
theorem test_decode_byte : decodeSends cfg [0xA9#8, 0xAD#8, 0xA9#8, 0x59#8, 0x5D#8, 0x59#8] =
    .ok [.write 0xA5] := by decide

/-- Sends that are no triples are refused (R73). -/
theorem test_decode_sends_refuse : decodeSends cfg [0xA9#8, 0xA9#8, 0xA9#8] = .error (.badTriple 0xA9#8 0xA9#8 0xA9#8) ∧
    decodeSends cfg [0xA9#8, 0xAD#8] = .error .cutShort ∧
    decodeSends cfg [0xAA#8, 0xAE#8, 0xAA#8] = .error (.notFormatted 0xAA#8) := by decide

theorem test_encode : encodeTableWord (.dispctl 1 1 0) = some (16, 0x00E) ∧
    encodeTableWord (.write 0x41) = some (16, 0x141) ∧ encodeTableWord (.setcursor 1 64) = some (16, 0x080) ∧
    encodeTableWord (.nibble 0x3 0) = some (8, 0x03) ∧ encodeTableWord .init = none ∧
    encodeTableWord .detach = none ∧ encodeTableWord (.byte 0 0) = none ∧ encodeTableWord (.wait .tEP) = none := by
  decide

/-! The formatter (40_expander_format.md R84, R89). -/

theorem test_fmt_defaults : fmt cfg 0x3#4 false true = 0x3C#8 ∧ fmt cfg 0x0#4 false false = 0x08#8 ∧
    fmt cfg 0xF#4 true true = 0xFD#8 := by decide

/-- Another wiring: RS at 3, E at 1, BL at 0, backlight off; n = 5, rs = 1, en = 1 give 0101_1010. -/
theorem test_fmt_other_wiring :
    fmt { cfg with rsBit := 3, enBit := 1, blBit := 0, blOn := false } 0x5#4 true true = 0x5A#8 := by decide

/-! One step of each instruction: bytes from 95_test_vectors.md section 2. -/

theorem test_clear : (after (exec .clear ready)).map (fun t => t.trace) =
    some [.send 0x27#7 0x08#8 .ok, .wait .tEP, .send 0x27#7 0x0C#8 .ok, .wait .tEP, .send 0x27#7 0x08#8 .ok,
      .send 0x27#7 0x18#8 .ok, .wait .tEP, .send 0x27#7 0x1C#8 .ok, .wait .tEP, .send 0x27#7 0x18#8 .ok,
      .wait .tCLR] := by decide

theorem test_home : bytesSent .home ready = some [0x08#8, 0x0C#8, 0x08#8, 0x28#8, 0x2C#8, 0x28#8] := by decide

theorem test_entry : bytesSent (.entry 0 1) ready = some [0x08#8, 0x0C#8, 0x08#8, 0x58#8, 0x5C#8, 0x58#8] := by decide

theorem test_dispctl : bytesSent (.dispctl 1 1 0) ready = some [0x08#8, 0x0C#8, 0x08#8, 0xE8#8, 0xEC#8, 0xE8#8] := by
  decide

theorem test_funcset : bytesSent (.funcset 1 0 1) ready = some [0x38#8, 0x3C#8, 0x38#8, 0x48#8, 0x4C#8, 0x48#8] := by
  decide

theorem test_setddram : bytesSent (.setddram 0x67) ready = some [0xE8#8, 0xEC#8, 0xE8#8, 0x78#8, 0x7C#8, 0x78#8] := by
  decide

theorem test_write : bytesSent (.write 0x7E) ready = some [0x79#8, 0x7D#8, 0x79#8, 0xE9#8, 0xED#8, 0xE9#8] := by decide

theorem test_setcursor : bytesSent (.setcursor 1 3) ready = some [0xC8#8, 0xCC#8, 0xC8#8, 0x38#8, 0x3C#8, 0x38#8] := by
  decide

/-- The column wraps: (1, 255) is the address 0x3F. -/
theorem test_setcursor_wraps :
    bytesSent (.setcursor 1 255) ready = some [0xB8#8, 0xBC#8, 0xB8#8, 0xF8#8, 0xFC#8, 0xF8#8] := by decide

theorem test_nibble : (after (exec (.nibble 0x3 0) ready)).map (fun t => t.trace) =
    some [.send 0x27#7 0x38#8 .ok, .wait .tEP, .send 0x27#7 0x3C#8 .ok, .wait .tEP, .send 0x27#7 0x38#8 .ok] := by
  decide

theorem test_byte : bytesSent (.byte 0x5A 0) ready = some [0x58#8, 0x5C#8, 0x58#8, 0xA8#8, 0xAC#8, 0xA8#8] := by decide

theorem test_wait : (after (exec (.wait .tCLR) ready)).map (fun t => (t.trace, t.port, t.ctl.waited)) =
    some ([.wait .tCLR], 0xC8#8, 4000) := by decide

/-- V-R5. -/
theorem test_detach : (after (exec .detach ready)).map (fun t => (t.life, t.status.code, t.trace, t.port)) =
    some (.stopped, 0, [], 0xC8#8) := by decide

/-- Program P1: 42 sends, 33 waits, READY. -/
theorem test_init : (after (exec .init fresh)).map (fun t => (sendCount t.trace, t.trace.length, t.port, t.life)) =
    some (42, 75, 0xC8#8, .ready) := by decide +kernel

/-! Effects at the observer: programs P2, P4 and P6. -/

/-- `WRITE 'H'` with the cursor at 0x43. -/
theorem test_write_observer : (after (exec (.write 0x48) { ready with ctl := { ctl with regs := { regs with ac := 0x43#7 } } })).map
    (fun t => (t.ctl.cell 0x43#7, t.ctl.cell 0x44#7, t.ctl.regs.ac)) = some (0x48#8, 0x20#8, 0x44#7) := by decide

/-- Program P4, third operation: with the halves shifted CLEAR's first nibble completes the byte 0x20; nothing is cleared. -/
theorem test_clear_out_of_step :
    (after (exec .clear { ready with ctl := { ctl with half := .lo, hi := 0x2#4, ddram := [(0, 0x44#8)] } })).map
      (fun t => (t.ctl.regs.fn, t.ctl.half, t.ctl.hi, t.ctl.cell 0x00#7)) = some (0x20#8, .lo, 0x1#4, 0x44#8) := by
  decide

/-! Failures: V-B1, V-B3, program P5 and R141. -/

theorem test_clear_fails_last : (after (exec .clear (block .ready (failAt 5)))).map
    (fun t => (bytesOf t.trace, t.trace.length, t.status.code, t.errKind)) =
      some ([0x08#8, 0x0C#8, 0x08#8, 0x18#8, 0x1C#8, 0x18#8], 10, 1, some .nack) := by decide

theorem test_setcursor_fails_fourth : (after (exec (.setcursor 1 3) (block .ready (failAt 3)))).map
    (fun t => (bytesOf t.trace, t.trace.length, t.life)) =
      some ([0xC8#8, 0xCC#8, 0xC8#8, 0x38#8], 6, .ready) := by decide

/-- Send 13 of INIT fails: step 4; the port is 0x28 either way, the observer has had the raw 0x2 and no byte. -/
theorem test_init_fails : (after (exec .init { fresh with answers := failAt 12 })).map
    (fun t => (t.errStep, t.status.code, t.life, t.port, t.ctl.mode, t.ctl.half)) =
      some (4, 2, .failed, 0x28#8, .m4, .hi) := by decide

/-- The third send of a nibble fails and does not reach the port: E stays high. -/
theorem test_nibble_leaves_e_high : (after (exec (.nibble 0x4 1) (block .ready (failAt 2)))).map (fun t => t.port) =
    some 0x4D#8 := by decide

/-- The failing byte reaches the port: E is low again. -/
theorem test_nibble_failing_byte_lands :
    (after (exec (.nibble 0x4 1) (block .ready [.ok, .ok, .error .timeout true]))).map (fun t => (t.port, t.errKind)) =
      some (0x49#8, some .timeout) := by decide

/-! Refusals: V-R1 to V-R8. -/

theorem test_refuse_before_init : refusal (exec (.write 0x41) fresh) = some (.notAdmitted .reset) := by decide

theorem test_refuse_second_init : refusal (exec .init ready) = some (.notAdmitted .ready) := by decide

theorem test_refuse_after_failure : refusal (exec .clear (block .failed [])) = some (.notAdmitted .failed) := by decide

theorem test_refuse_operand : refusal (exec (.entry 2 0) ready) = some .operandOutOfRange := by decide

theorem test_refuse_after_detach : refusal (exec (.setcursor 0 0) (block .stopped [])) = some (.notAdmitted .stopped) := by
  decide

theorem test_refuse_read : refusal (step { ready with offers := [.read] }) = some .readOfBus := by decide

theorem test_refuse_one_line : refusal (exec .init { fresh with cfg := { cfg with lineCount := 1 } }) =
    some .illegalConfiguration := by decide

theorem test_refuse_primitive_offered : refusal (step { ready with offers := [.op (.nibble 3 0)] }) = some .notOnPort := by
  decide

/-! The step, the placing of a word, and the spelling of operations. -/

/-- A command placed as the next instruction runs. -/
theorem test_withFetchWord_command : (after (step (fresh.withFetchWord 16 0x00C))).map (fun t => (bytesOf t.trace, t.offers)) =
    some ([0x08#8, 0x0C#8, 0x08#8, 0xC8#8, 0xCC#8, 0xC8#8], []) := by decide

/-- A nibble placed as the next instruction runs. -/
theorem test_withFetchWord_nibble : (after (step (fresh.withFetchWord 8 0x13))).map (fun t => bytesOf t.trace) =
    some [0x39#8, 0x3D#8, 0x39#8] := by decide

/-- A wait leaves `nib` and `phase` where the last send left them (41_protocol_encoder.md R98): at T_CLR of HOME the pc stays
`(0,1,3)`, at T_CLR of step 6 of INIT `(6,1,3)`. -/
theorem test_wait_keeps_pc : (after (step running)).map (fun t => t.pc) =
    some { step := 0, nib := 1, phase := 3 } ∧
    ({ step := 6, prim := .wait .tCLR } : Micro).place { step := 6, nib := 1, phase := 3 } =
      { step := 6, nib := 1, phase := 3 } := by decide

/-- Codes no operation generates leave the observer in any state (93_implementation_defined.md): 0x03 is no ReturnHome and
0x2A no function set, while 0x02 and 0x28 are. -/
theorem test_not_generated_codes : (deliverCode 0x03#8 ctl).mode = .unknown ∧ (deliverCode 0x2A#8 ctl).mode = .unknown ∧
    (deliverCode 0x02#8 ctl).mode = .m4 ∧ (deliverCode 0x28#8 ctl).mode = .m4 := by decide

theorem test_text : (Instr.entry 1 0).text = "ENTRY 1, 0" ∧ Instr.init.text = "INIT" ∧
    (Instr.wait .tCLR).text = "WAIT T_CLR" := by decide +kernel

/-- The examples of R78, a hexadecimal number with a comment, a semicolon as a character. -/
theorem test_read : readLine "ENTRY 1, 0".toList = some [.entry 1 0] ∧
    readLine "SETCURSOR 1, 3".toList = some [.setcursor 1 3] ∧ readLine "WRITE 'A'".toList = some [.write 0x41] ∧
    readLine "SETDDRAM 0x7F ; last".toList = some [.setddram 127] ∧ readLine "WRITE ';'".toList = some [.write 0x3B] ∧
    readLine "WAIT T_INIT3".toList = some [.wait .tINIT3] := by decide +kernel

/-- A pseudo-operation (R79), an empty line and a comment; a missing comma and an unknown mnemonic are refused. -/
theorem test_read_program : readProgram ["DISPLAY_ON".toList, [], "; nothing".toList, "PUTS \"Hi\"".toList] =
      some [.dispctl 1 0 0, .write 0x48, .write 0x69] ∧
    readLine "ENTRY 1 0".toList = none ∧ readLine "ENTRY 1, 0,".toList = none ∧ readLine "JUMP 1".toList = none := by
  decide +kernel

/-- R79 and R171: the refresh of a 14-character and an 8-character line is 25 operations. -/
theorem test_refresh : (refresh (List.replicate 14 0x41) (List.replicate 8 0x42)).length = 25 := by decide

/-! Witnesses: for every statement with hypotheses, a state and operands that meet all of them together. -/

theorem ready_faultFree : FaultFree 12 ready := by unfold FaultFree; decide

theorem ready_faultFree6 : FaultFree 6 ready := by unfold FaultFree; decide

theorem fresh_faultFree : FaultFree 42 fresh := by unfold FaultFree; decide +kernel

theorem ready_idle : IdleIn .ready ready := by unfold IdleIn; decide

theorem fresh_idle : IdleIn .reset fresh := by unfold IdleIn; decide

theorem ready_inStep : InStep ready := by unfold InStep; decide

theorem ready_inv : Inv ready := by
  constructor <;> first | exact Memory.blank_wf | decide

theorem witness_ClearSendsCodeThenWaits : IdleIn .ready ready ∧ FaultFree 6 ready := ⟨ready_idle, ready_faultFree6⟩

theorem witness_HomeSendsCodeThenWaits : IdleIn .ready ready ∧ FaultFree 6 ready := ⟨ready_idle, ready_faultFree6⟩

/-- All four codes, at both ends of each operand. -/
theorem witness_EntrySendsItsCode : (0 < 2 ∧ 1 < 2) ∧ IdleIn .ready ready ∧ FaultFree 6 ready :=
  ⟨by decide, ready_idle, ready_faultFree6⟩

theorem witness_DispctlSendsItsCode : (1 < 2 ∧ 0 < 2 ∧ 1 < 2) ∧ IdleIn .ready ready ∧ FaultFree 6 ready :=
  ⟨by decide, ready_idle, ready_faultFree6⟩

theorem witness_FuncsetSendsItsCode : (1 < 2 ∧ 1 < 2 ∧ 0 < 2) ∧ IdleIn .ready ready ∧ FaultFree 6 ready :=
  ⟨by decide, ready_idle, ready_faultFree6⟩

theorem witness_SetddramSendsItsCode : 127 < 128 ∧ IdleIn .ready ready ∧ FaultFree 6 ready :=
  ⟨by decide, ready_idle, ready_faultFree6⟩

theorem witness_WriteSendsItsCharacter : 255 < 256 ∧ IdleIn .ready ready ∧ FaultFree 6 ready :=
  ⟨by decide, ready_idle, ready_faultFree6⟩

/-- Row 0 and row 1, the last column. -/
theorem witness_SetcursorSendsTheAddress : (0 < 2 ∧ 1 < 2 ∧ 255 < 256) ∧ IdleIn .ready ready ∧ FaultFree 6 ready :=
  ⟨by decide, ready_idle, ready_faultFree6⟩

/-- A command with a post-delay, one without, and the one on the data path. -/
theorem witness_EveryCommandIsOneByteTransfer : (Instr.clear.isCommand = true ∧ Instr.clear.wellFormed = true) ∧
    ((Instr.entry 1 1).isCommand = true ∧ (Instr.entry 1 1).wellFormed = true) ∧
    ((Instr.write 0).isCommand = true ∧ (Instr.write 0).wellFormed = true) ∧ IdleIn .ready ready ∧ FaultFree 6 ready :=
  ⟨by decide, by decide, by decide, ready_idle, ready_faultFree6⟩

theorem witness_DetachStopsWithoutASend : IdleIn .ready ready := ready_idle

theorem witness_InitEmitsTheStepTable : IdleIn .reset fresh ∧ FaultFree 42 fresh := ⟨fresh_idle, fresh_faultFree⟩

theorem witness_NibbleMakesOnePulse : 15 < 16 ∧ 1 < 2 ∧ ready.cfg.legal = true ∧ FaultFree 3 ready := by
  unfold FaultFree; decide

theorem witness_ByteSendsHighNibbleFirst : 255 < 256 ∧ 1 < 2 ∧ ready.cfg.legal = true ∧ FaultFree 6 ready := by
  unfold FaultFree; decide

theorem witness_WaitOnlyLetsTimePass : ready.cfg.legal = true := by decide

/-- INIT in RESET, a command in READY, a primitive. -/
theorem witness_MinimumDurations : FaultFree 42 fresh ∧ fresh.cfg.legal = true ∧ IdleIn .reset fresh ∧
    (let s := block .ready (List.replicate 42 .ok); FaultFree 42 s ∧ s.cfg.legal = true ∧ IdleIn .ready s) ∧
    (Instr.wait .tPWR).wellFormed = true := by unfold FaultFree IdleIn; decide +kernel

/-- The first and the last send of a command. -/
theorem witness_CommandEndsAtFirstFailedSend : (Instr.write 0x41).wellFormed = true ∧
    encodeCode (.write 0x41) = some (true, 0x41#8) ∧ (0 < 6 ∧ 5 < 6) ∧
    IdleIn .ready (block .ready (failAt 0)) ∧ FailsFirstAt 0 .nack (block .ready (failAt 0)) ∧
    IdleIn .ready (block .ready (failAt 5)) ∧ FailsFirstAt 5 .nack (block .ready (failAt 5)) := by
  unfold FailsFirstAt FaultFree IdleIn; decide

/-- The first and the last send of INIT, and a send on each side of the step boundaries. -/
theorem witness_InitFailsInTheStepOfItsSend : ∀ k ∈ [0, 8, 9, 11, 12, 17, 18, 23, 24, 29, 30, 35, 36, 41],
    k < 42 ∧ IdleIn .reset { fresh with answers := failAt k } ∧
      FailsFirstAt k .nack { fresh with answers := failAt k } := by
  unfold FailsFirstAt FaultFree IdleIn; decide +kernel

/-- The first and the last send, inside INIT and outside it. -/
theorem witness_FailedNibbleCountsItsEvents : ∀ k ∈ [0, 1, 2], 0xF < 16 ∧ 1 < 2 ∧ k < 3 ∧
    FailsFirstAt k .nack (block .ready (failAt k)) ∧ (block .ready (failAt k)).cfg.legal = true ∧
    FailsFirstAt k .nack { block .initializing (failAt k) with op := some .init } := by
  unfold FailsFirstAt FaultFree; decide

theorem witness_SendSetsOrKeepsThePort : (ready.turnAt 0).reply = .ok := by decide

theorem witness_FailedFallingEdgeLeavesEHigh : 4 < 16 ∧ 1 < 2 ∧ (block .ready (failAt 2)).cfg.legal = true ∧
    FaultFree 2 (block .ready (failAt 2)) ∧ (block .ready (failAt 2)).turnAt 2 = .error .nack false := by
  unfold FaultFree; decide

/-- INIT in RESET and a command in READY. -/
theorem witness_AdmittedOperationAlwaysEnds : (Instr.init.onPort = true ∧ Instr.init.wellFormed = true ∧ IdleIn .reset fresh) ∧
    Instr.home.onPort = true ∧ Instr.home.wellFormed = true ∧ IdleIn .ready ready := by unfold IdleIn; decide

/-- INIT in READY, a command in RESET, DETACH in STOPPED; INIT in RESET, a command in READY. -/
theorem witness_OperationAdmittedOnlyInItsState : Instr.init.onPort = true ∧ Instr.detach.onPort = true ∧
    Instr.init.wellFormed = true ∧ Instr.detach.wellFormed = true ∧ ready.cfg.legal = true ∧ ready.op = none ∧
    ready.life ≠ .reset ∧ ready.life = .ready ∧ fresh.cfg.legal = true ∧ fresh.op = none ∧ fresh.life ≠ .ready ∧
    fresh.life = .reset ∧ (block .stopped []).life ≠ .ready ∧ (block .stopped []).op = none := by decide

/-- Both sides of each limit. -/
theorem witness_OperandOutOfRangeRefused : ¬ (2 < 2 ∧ 0 < 256) ∧ ¬ 128 < 128 ∧ 127 < 128 ∧ ¬ 256 < 256 ∧ 255 < 256 ∧
    (1 < 2 ∧ 255 < 256) ∧ refusal (exec (.setcursor 2 0) ready) = some .operandOutOfRange ∧
    refusal (exec (.setddram 128) ready) = some .operandOutOfRange ∧ refusal (exec (.setddram 127) ready) = none := by
  decide

/-- Each way a parameter set can be illegal. -/
theorem witness_IllegalConfigurationRefused : Instr.clear.wellFormed = true ∧ ready.op = none ∧
    ({ cfg with rsBit := 2 } : Cfg).rsBit = cfg.enBit ∧ ({ cfg with rsBit := 3 } : Cfg).rsBit = cfg.blBit ∧
    ({ cfg with enBit := 3 } : Cfg).enBit = cfg.blBit ∧ 4 ≤ ({ cfg with rsBit := 4 } : Cfg).rsBit ∧
    4 ≤ ({ cfg with enBit := 4 } : Cfg).enBit ∧ 4 ≤ ({ cfg with blBit := 4 } : Cfg).blBit ∧
    ({ cfg with lineCount := 1 } : Cfg).lineCount ≠ 2 := by decide

theorem witness_ReadsAndPrimitivesRefusedAtThePort : ready.op = none ∧ ready.rest = [] ∧
    ({ ready with offers := [.read] } : State).offers = [.read] ∧ (Instr.byte 0 0).onPort = false := by decide

/-- An offer to a block that is running, and one to an idle block. -/
theorem witness_PortBlocksWhileAnOperationRuns : Instr.clear.onPort = true ∧ running.op = some .home ∧
    running.offers = [] ∧ running.cfg.legal = true ∧ running.rest ≠ [] ∧ ready.op = none := by decide

/-- An operation offered, a word offered, a wait, a nibble and a byte of a running operation. -/
theorem witness_StepRunsTheDecodedInstruction : ready.op = none ∧ ready.rest = [] ∧
    ({ ready with offers := [.op .clear] } : State).offers = [.op .clear] ∧ Instr.clear.onPort = true ∧
    decodeTableWord 16 0x001 = some .clear ∧ running.rest = [{ step := 0, prim := .wait .tCLR }] ∧
    initBody.head? = some { step := 1, prim := .wait .tPWR } ∧
    initBody[1]? = some { step := 2, prim := .nibble 0x3#4 false } ∧
    initBody[8]? = some { step := 4, prim := .byte 0x28#8 false } := by decide

/-- Steps of READY, RESET and FAILED blocks that answer a next state. -/
theorem witness_EveryStepKeepsTheInvariant : Inv ready ∧ ∃ t, step { ready with offers := [.op .clear] } = .next t :=
  ⟨ready_inv, _, rfl⟩

theorem fresh_inv : Inv fresh := by
  constructor <;> decide

/-- RESET to READY and to FAILED, READY to STOPPED, and READY kept. -/
theorem witness_LifecycleChangesOnlyAsListed :
    Inv { fresh with offers := [.op .init] } ∧
    (after (step { fresh with offers := [.op .init] })).map (fun t => t.life) = some .ready ∧
    (after (step { fresh with offers := [.op .init], answers := failAt 0 })).map (fun t => t.life) = some .failed ∧
    (after (step { ready with offers := [.op .detach] })).map (fun t => t.life) = some .stopped ∧
    (after (step { ready with offers := [.op .clear] })).map (fun t => t.life) = some .ready :=
  ⟨by constructor <;> decide, by decide +kernel, by decide, by decide, by decide⟩

/-- A FAILED and a STOPPED block, both idle. -/
theorem witness_NothingHappensAfterTheEnd :
    Inv { block .failed [] with status := .initError, errStep := 2, errKind := some .nack } ∧ Inv (block .stopped []) ∧
    (∃ t, step { block .failed [] with status := .initError, errStep := 2, errKind := some .nack } = .next t) ∧
    ∃ t, step (block .stopped []) = .next t :=
  ⟨by constructor <;> first | exact Memory.blank_wf | decide, by constructor <;> first | exact Memory.blank_wf | decide,
    ⟨_, rfl⟩, _, rfl⟩

theorem witness_ConfigurationNeverChanges : ∃ t, step { ready with offers := [.op .clear] } = .next t := ⟨_, rfl⟩

theorem witness_EverySendCarriesBacklightAndAddress : ready.cfg.legal = true ∧
    ∃ t, step { ready with offers := [.op .clear] } = .next t := ⟨by decide, _, rfl⟩

theorem witness_StepsOfPrimitivesAreTheOperation :
    let s : State := { ready with op := some .home, rest := transferThenWait false codeHome .tCLR }
    s.op = some .home ∧ s.offers = [] ∧ s.cfg.legal = true := by decide

/-- The default wiring and another one; a byte with the unused bit 1, a byte with the backlight bit 0. -/
theorem witness_FormatterIsInverted : cfg.legal = true ∧
    ({ cfg with rsBit := 3, enBit := 1, blBit := 0 } : Cfg).legal = true ∧
    (1 < 4 ∧ 1 ≠ cfg.rsBit ∧ 1 ≠ cfg.enBit ∧ 1 ≠ cfg.blBit) ∧ (0x0A#8 : Byte).getLsbD 1 = true ∧
    (0x00#8 : Byte).getLsbD cfg.blBit ≠ cfg.blOn := by decide

theorem witness_FormatterImageAtDefaults : cfg.rsBit = 0 ∧ cfg.enBit = 2 ∧ cfg.blBit = 3 := by decide

/-- A command and a nibble. -/
theorem witness_DecodeOfEncodeIsTheInstruction : (Instr.setcursor 1 255).wellFormed = true ∧
    (Instr.setcursor 1 255).isCommand = true ∧ (Instr.nibble 15 1).wellFormed = true := by decide

theorem witness_EmittedBytesDecodeToTheCommand : (Instr.setcursor 1 64).isCommand = true ∧
    (Instr.setcursor 1 64).wellFormed = true ∧ IdleIn .ready ready ∧ FaultFree 6 ready :=
  ⟨by decide, by decide, ready_idle, ready_faultFree6⟩

theorem witness_InitBytesDecodeToTheSteps : IdleIn .reset fresh ∧ FaultFree 42 fresh := ⟨fresh_idle, fresh_faultFree⟩

/-- One code of each class. -/
theorem witness_HighestBitNamesTheCommand : encodeCode .clear = some (false, 0x01#8) ∧
    encodeCode .home = some (false, 0x02#8) ∧ encodeCode (.entry 1 1) = some (false, 0x07#8) ∧
    encodeCode (.dispctl 1 1 1) = some (false, 0x0F#8) ∧ encodeCode (.funcset 1 1 1) = some (false, 0x3C#8) ∧
    encodeCode (.setddram 0) = some (false, 0x80#8) ∧ encodeCode (.setcursor 1 0) = some (false, 0xC0#8) := by decide

/-- A command that ends OK and one that fails. -/
theorem witness_CommandFrame : Instr.home.isCommand = true ∧ ready.op = none ∧ (∃ t, exec .home ready = .next t) ∧
    ∃ t, exec .home (block .ready (failAt 2)) = .next t := ⟨by decide, by decide, ⟨_, rfl⟩, _, rfl⟩

/-- An INIT that ends OK and one that fails. -/
theorem witness_InitFrame : fresh.op = none ∧ (∃ t, exec .init fresh = .next t) ∧
    ∃ t, exec .init { fresh with answers := failAt 12 } = .next t := ⟨by decide, ⟨_, rfl⟩, _, rfl⟩

theorem witness_NonStoringCommandsKeepDdram : (Instr.setddram 0x27).isCommand = true ∧
    Instr.setddram 0x27 ≠ .clear ∧ (∀ ch, Instr.setddram 0x27 ≠ .write ch) ∧
    (∀ lines font, Instr.setddram 0x27 ≠ .funcset 1 lines font) ∧ ready.op = none ∧ InStep ready ∧
    FaultFree 6 ready ∧ ∃ t, exec (.setddram 0x27) ready = .next t :=
  ⟨by decide, by decide, by simp, by simp, by decide, ready_inStep, ready_faultFree6, _, rfl⟩

/-- READY with the cursor at `a`, moving up (`up`) or down. -/
def readyAt (a : Addr) (up : Bool) : State := { ready with ctl := { ctl with regs := { regs with ac := a, id := up } } }

/-- The ends of both lines, a cell inside a line, up and down. -/
theorem witness_WriteStoresAtTheAddressCounter :
    ∀ a ∈ [0x00#7, 0x05#7, 0x27#7, 0x40#7, 0x67#7], ∀ up ∈ [true, false],
      IdleIn .ready (readyAt a up) ∧ InStep (readyAt a up) ∧ FaultFree 6 (readyAt a up) ∧
      (a.toNat ≤ 0x27 ∨ 0x40 ≤ a.toNat ∧ a.toNat ≤ 0x67) := by unfold IdleIn InStep FaultFree; decide +kernel

theorem witness_ClearEmptiesTheDisplay : IdleIn .ready ready ∧ InStep ready ∧ FaultFree 6 ready :=
  ⟨ready_idle, ready_inStep, ready_faultFree6⟩

theorem witness_SettingsReachTheController : IdleIn .ready ready ∧ InStep ready ∧ FaultFree 6 ready :=
  ⟨ready_idle, ready_inStep, ready_faultFree6⟩

theorem witness_EightBitFuncsetLosesTheController : IdleIn .ready ready ∧ InStep ready ∧ FaultFree 6 ready :=
  ⟨ready_idle, ready_inStep, ready_faultFree6⟩

theorem witness_CommandsKeepTheControllerInStep : (Instr.write 0).isCommand = true ∧
    (∀ lines font, Instr.write 0 ≠ .funcset 1 lines font) ∧ ready.op = none ∧ InStep ready ∧ FaultFree 6 ready ∧
    ∃ t, exec (.write 0) ready = .next t :=
  ⟨by decide, by simp, by decide, ready_inStep, ready_faultFree6, _, rfl⟩

/-- E high at the port before INIT, T_PWR owed. -/
theorem witness_InitBringsTheControllerIntoStep : IdleIn .reset fresh ∧ FaultFree 42 fresh ∧
    fresh.ctl.mode = .unknown ∧ fresh.ctl.n3 = 0 ∧ fresh.ctl.pend3 = false ∧ fresh.ctl.late = false ∧
    fresh.ctl.owed ≤ 50000 := ⟨fresh_idle, fresh_faultFree, by decide⟩

theorem witness_FirstNibbleIsHeld : 15 < 16 ∧ 1 < 2 ∧ ready.cfg.legal = true ∧ InStep ready ∧ FaultFree 3 ready := by
  unfold InStep FaultFree; decide

theorem witness_ByteIsDeliveredOnce : 255 < 256 ∧ 1 < 2 ∧ ready.cfg.legal = true ∧ InStep ready ∧ FaultFree 6 ready := by
  unfold InStep FaultFree; decide

/-- A rising edge, E low twice, E high twice. -/
theorem witness_OnlyAFallingEdgeDelivers :
    ¬ ((0x08#8 : Byte).getLsbD cfg.enBit = true ∧ (0x0C#8 : Byte).getLsbD cfg.enBit = false) ∧
    ¬ ((0x08#8 : Byte).getLsbD cfg.enBit = true ∧ (0xF8#8 : Byte).getLsbD cfg.enBit = false) ∧
    ¬ ((0x0C#8 : Byte).getLsbD cfg.enBit = true ∧ (0xFC#8 : Byte).getLsbD cfg.enBit = false) := by decide

/-- T_EP not yet passed; T_CLR not yet passed. -/
theorem witness_BrokenTimingLosesTheController : (0x0C#8 : Byte).getLsbD cfg.enBit = true ∧
    (0x08#8 : Byte).getLsbD cfg.enBit = false ∧ ({ ctl with waited := 499 } : Ctl).waited < 500 ∧
    ({ ctl with waited := 1999, owed := 2000 } : Ctl).waited < ({ ctl with waited := 1999, owed := 2000 } : Ctl).owed := by
  decide

/-- A controller in 4-bit mode. -/
theorem witness_ThreeRawNibblesForceEightBitMode : ready.cfg.legal = true ∧ FaultFree 9 ready ∧
    ready.port.getLsbD ready.cfg.enBit = false ∧ ready.ctl.late = false ∧ ready.ctl.owed ≤ ready.ctl.waited := by
  unfold FaultFree; decide

theorem witness_ClearIsIdempotentAtTheController : IdleIn .ready ready ∧ InStep ready ∧ FaultFree 12 ready :=
  ⟨ready_idle, ready_inStep, ready_faultFree⟩

end Sys2Proof.Tests
end

section
/-! PROOFS. The scope (00_scope.md): a block with an illegal parameter set runs nothing (R8). -/

namespace Sys2Proof.Machine

/-- Every form off the port is one primitive run inside the operation in progress (30_encoding.md R64). -/
theorem exec_offPort (i : Instr) (h : i.onPort = false) : ∃ p, ∀ s, exec i s = runPrimitive i p s := by
  cases i <;> simp only [Instr.onPort, reduceCtorEq] at h <;> exact ⟨_, fun _ => rfl⟩

/-- The ways a parameter set is illegal (00_scope.md R8, 90_conflicts.md C3). -/
theorem Cfg.legal_eq_false_iff (c : Cfg) : c.legal = false ↔ c.rsBit = c.enBit ∨ c.rsBit = c.blBit ∨
    c.enBit = c.blBit ∨ 4 ≤ c.rsBit ∨ 4 ≤ c.enBit ∨ 4 ≤ c.blBit ∨ c.lineCount ≠ 2 := by
  rw [← Bool.not_eq_true, Cfg.legal_iff]
  omega

/-- Admission refuses an illegal configuration, in every lifecycle state. -/
theorem refusal?_of_illegal {i : Instr} {s : State} (hi : i.wellFormed = true) (hc : s.cfg.legal = false) :
    refusal? i s = some .illegalConfiguration := by simp [refusal?, hi, hc]

theorem runOperation_of_illegal {i : Instr} {s : State} (body : List Micro) (hi : i.wellFormed = true)
    (ho : s.op = none) (hc : s.cfg.legal = false) : runOperation i body s = .refused .illegalConfiguration := by
  simp [runOperation, drain_of_idle ho, refusal?_of_illegal hi hc]

theorem runPrimitive_of_illegal {i : Instr} {s : State} (p : Prim) (hi : i.wellFormed = true)
    (hc : s.cfg.legal = false) : runPrimitive i p s = .refused .illegalConfiguration := by
  simp [runPrimitive, hi, hc]

/-- Settles O24: an operation of the port is refused at its admission, a primitive by its own check. -/
theorem illegalConfigurationRefused : Obligations.IllegalConfigurationRefused := by
  intro i s hi ho hbad
  have hc : s.cfg.legal = false := (Cfg.legal_eq_false_iff s.cfg).2 hbad
  cases hp : i.onPort with
  | true =>
    obtain ⟨body, hexec, -⟩ := exec_onPort i hp
    rw [hexec, runOperation_of_illegal body hi ho hc]
  | false =>
    obtain ⟨p, hexec⟩ := exec_offPort i hp
    rw [hexec, runPrimitive_of_illegal p hi hc]

end Sys2Proof.Machine
end

section
/-! PROOFS. The state (10_state.md): what an operation of the port can do to it, said once; the invariant of every step (R19 to
R25), the lifecycle (R20, R21), the configuration (R28) and the blocking port (R22). -/

namespace Sys2Proof.Machine

/-! One operation of an idle block. -/

/-- A body runs to a state `u` in which it comes to its normal end, or makes the send that fails. -/
theorem runMicros_comes_to (ms : List Micro) (s : State) :
    ∃ n tr u, Advance n tr s u ∧ (runMicros ms s = u.finish ∨
      ∃ b kind, runMicros ms s = (u.sent b).raise kind ∧ n < microsSends ms ∧ u.pc.step = microsStep ms n) := by
  rcases faultFree_or_fails (microsSends ms) s with hok | ⟨k, kind, hk, hfail⟩
  · obtain ⟨u, hu, a⟩ := runMicros_ok hok
    exact ⟨_, _, u, a, .inl hu⟩
  · obtain ⟨u, n, rs, en, tr, hu, a, -, -, hstep⟩ := runMicros_fails hfail hk
    exact ⟨k, tr, u, a, .inr ⟨_, kind, hu, hk, hstep⟩⟩

/-- The three ends of an operation and what each writes: the normal end (60_exceptions.md R135), a failed INIT (R139) and any
other operation whose send failed (R136). -/
inductive OperationEnd (i : Instr) (s t : State) : Prop where
  | ok (status : t.status = .ok) (life : t.life = lifeAtEnd (some i) s.life) (kind : t.errKind = s.errKind)
      (step : t.errStep = s.errStep)
  | initError (form : i = .init) (status : t.status = .initError) (life : t.life = .failed) (kind : t.errKind ≠ none)
      (step : 2 ≤ t.errStep ∧ t.errStep ≠ 0)
  | busError (form : i ≠ .init) (status : t.status = .busError) (life : t.life = s.life)
      (step : t.errStep = s.errStep)

/-- What is known of an operation of the port that took an idle block from `s` to `t`, whatever the bus answered. -/
structure OperationRan (i : Instr) (s t : State) : Prop where
  admitted : IdleIn (admittedIn i) s
  emits : Emits s t
  offers : t.offers = s.offers
  op_none : t.op = none
  rest_nil : t.rest = []
  pc_zero : t.pc = Pc.zero
  ddram_wf : s.ctl.ddram.wf → t.ctl.ddram.wf
  ending : OperationEnd i s t

theorem raise_offers (kind : BusKind) (s : State) : (s.raise kind).offers = s.offers := by
  unfold State.raise; split <;> rfl

/-- Where its body came to its normal end, an operation ended OK. -/
theorem operationEnd_finish {i : Instr} {body : List Micro} {n : Nat} {tr : List Event} {s u : State}
    (a : Advance n tr (s.start i body) u) : OperationEnd i s u.finish := by
  refine .ok rfl ?_ (by simpa using a.errKind) (by simpa using a.errStep)
  by_cases hi : i = .init <;> simp [a.op, a.life, hi, lifeAtEnd]

/-- Where a send of its body failed, an operation ended with the error of its kind; INIT in the step of that send. -/
theorem operationEnd_raise {i : Instr} {body : List Micro} {n : Nat} {tr : List Event} {s u : State}
    (a : Advance n tr (s.start i body) u) (hstep : i = .init → 2 ≤ u.pc.step ∧ u.pc.step ≠ 0) (b : Byte)
    (kind : BusKind) : OperationEnd i s ((u.sent b).raise kind) := by
  have hop : (u.sent b).op = some i := by simp [a.op]
  unfold State.raise
  by_cases hi : i = .init
  · rw [if_pos (by rw [hop, hi])]
    exact .initError hi rfl rfl (by simp) (by simpa using hstep hi)
  · rw [if_neg (by rw [hop]; simpa using hi)]
    exact .busError hi rfl (by simp [a.life, hi]) (by simp [a.errStep])

/-- The one inversion lemma of the operations of the port: an operation that answers a next state in an idle block was
admitted and ended in one of the three ways. -/
theorem operationRan_of_exec {i : Instr} {s t : State} (hp : i.onPort = true) (ho : s.op = none)
    (h : exec i s = .next t) : OperationRan i s t := by
  obtain ⟨body, hexec, hinit⟩ := exec_onPort i hp
  obtain ⟨-, hidle, ht⟩ := runOperation_next ho ((hexec s).symm.trans h)
  obtain ⟨hop, hrest, hpc⟩ := ht ▸ runMicros_idle body (s.start i body)
  obtain ⟨n, tr, u, a, hend⟩ := runMicros_comes_to body (s.start i body)
  obtain ⟨hoffers, hwf, hending⟩ :
      t.offers = s.offers ∧ (s.ctl.ddram.wf → t.ctl.ddram.wf) ∧ OperationEnd i s t := by
    rcases hend with hu | ⟨b, kind, hu, hn, hstep⟩ <;> rw [ht, hu]
    · exact ⟨a.offers, a.wf, operationEnd_finish a⟩
    · have from_two (hi : i = .init) : 2 ≤ u.pc.step ∧ u.pc.step ≠ 0 := by
        obtain rfl := hinit hi
        rw [hstep, microsStep_init n hn]
        exact initStepOf_ge n
      exact ⟨by rw [raise_offers, State.sent_offers]; exact a.offers, fun hs => raise_wf (sent_wf (a.wf hs)),
        operationEnd_raise a from_two b kind⟩
  exact ⟨hidle, exec_emits h, hoffers, hop, hrest, hpc, hwf, hending⟩

/-- A step of a block that meets the invariant does nothing, or runs one offered operation whole. -/
theorem step_of_inv {s t : State} (hs : Inv s) (h : step s = .next t) :
    t = s ∨ ∃ i os, OperationRan i { s with offers := os } t := by
  rcases step_of_idle hs.op_none hs.rest_nil h with rfl | ⟨i, os, hp, he⟩
  · exact .inl rfl
  · exact .inr ⟨i, os, operationRan_of_exec hp hs.op_none he⟩

/-! The lifecycle and the invariant. -/

/-- An operation is admitted in RESET, if it is INIT, or else in READY (30_encoding.md R66). -/
theorem OperationRan.life_before {i : Instr} {s t : State} (h : OperationRan i s t) :
    (i = .init ∧ s.life = .reset) ∨ (i ≠ .init ∧ s.life = .ready) := by
  obtain ⟨-, hlife, -⟩ := h.admitted
  by_cases hi : i = .init
  · exact .inl ⟨hi, by rw [hlife, admittedIn, if_pos hi]⟩
  · exact .inr ⟨hi, by rw [hlife, admittedIn, if_neg hi]⟩

/-- The transitions of the lifecycle that one operation makes (10_state.md R21). -/
theorem OperationRan.life_changes {i : Instr} {s t : State} (h : OperationRan i s t) :
    t.life = s.life ∨ (s.life = .reset ∧ (t.life = .ready ∨ t.life = .failed)) ∨
      (s.life = .ready ∧ t.life = .stopped) := by
  cases h.ending with
  | ok _ life =>
    rcases h.life_before with ⟨rfl, hs⟩ | ⟨hi, hs⟩
    · exact .inr (.inl ⟨hs, .inl life⟩)
    · by_cases hd : i = .detach
      · exact .inr (.inr ⟨hs, by simpa [lifeAtEnd, hd] using life⟩)
      · exact .inl (by simpa [lifeAtEnd, hi, hd] using life)
  | initError form _ life =>
    rcases h.life_before with ⟨-, hs⟩ | ⟨hi, -⟩
    · exact .inr (.inl ⟨hs, .inr life⟩)
    · exact absurd form hi
  | busError _ _ life => exact .inl life

theorem OperationRan.not_failed_before {i : Instr} {s t : State} (h : OperationRan i s t) : s.life ≠ .failed := by
  rcases h.life_before with ⟨-, hl⟩ | ⟨-, hl⟩ <;> simp [hl]

/-- Only a failing INIT writes FAILED (60_exceptions.md R139). -/
theorem OperationRan.failed_or_not {i : Instr} {s t : State} (h : OperationRan i s t) :
    (t.life = .failed ∧ t.status = .initError ∧ t.errKind ≠ none ∧ 2 ≤ t.errStep ∧ t.errStep ≠ 0) ∨
      (t.life ≠ .failed ∧ t.status ≠ .initError ∧ t.errStep = s.errStep) := by
  cases h.ending with
  | ok status life kind step =>
    have not_failed : lifeAtEnd (some i) s.life ≠ .failed := by
      unfold lifeAtEnd
      split
      · simp
      · split
        · simp
        · exact h.not_failed_before
    exact .inr ⟨life ▸ not_failed, by simp [status], step⟩
  | initError _ status life kind step => exact .inl ⟨life, status, kind, step⟩
  | busError _ status life step => exact .inr ⟨life ▸ h.not_failed_before, by simp [status], step⟩

/-- The invariant is kept by every operation. -/
theorem OperationRan.inv {i : Instr} {s t : State} (h : OperationRan i s t) (hs : Inv s) : Inv t := by
  have not_initializing : t.life ≠ .initializing := by
    rcases h.life_changes with hl | ⟨-, hl | hl⟩ | ⟨-, hl⟩ <;> simp [hl, hs.not_initializing]
  have step_zero : s.errStep = 0 := Decidable.not_not.1 (mt hs.failed_iff_step.2 h.not_failed_before)
  have ddram_wf := h.ddram_wf hs.ddram_wf
  rcases h.failed_or_not with ⟨hl, hst, hkind, htwo, hne⟩ | ⟨hl, hst, hstep⟩
  · exact ⟨h.op_none, h.rest_nil, h.pc_zero, not_initializing, iff_of_true hl hst, iff_of_true hl hne,
      fun _ => htwo, fun _ => hkind, ddram_wf⟩
  · have hzero : t.errStep = 0 := hstep.trans step_zero
    exact ⟨h.op_none, h.rest_nil, h.pc_zero, not_initializing, iff_of_false hl hst,
      iff_of_false hl (not_not_intro hzero), fun hne => absurd hzero hne, fun hf => absurd hf hl, ddram_wf⟩

/-- The offers are no part of the invariant. -/
theorem Inv.with_offers {s : State} (hs : Inv s) (os : List Offer) : Inv { s with offers := os } :=
  ⟨hs.op_none, hs.rest_nil, hs.pc_zero, hs.not_initializing, hs.failed_iff_status, hs.failed_iff_step,
    hs.step_from_two, hs.failed_has_kind, hs.ddram_wf⟩

/-- Settles O31: the one operation a step can run keeps the invariant. -/
theorem everyStepKeepsTheInvariant : Obligations.EveryStepKeepsTheInvariant := by
  intro s t hs h
  rcases step_of_inv hs h with rfl | ⟨i, os, ran⟩
  · exact hs
  · exact ran.inv (hs.with_offers os)

/-- Settles O32, by the transitions of the one operation a step can run. -/
theorem lifecycleChangesOnlyAsListed : Obligations.LifecycleChangesOnlyAsListed := by
  intro s t hs h
  rcases step_of_inv hs h with rfl | ⟨i, os, ran⟩
  · exact .inl rfl
  · exact ran.life_changes

/-- Settles O33: no operation is admitted in FAILED or STOPPED, so only the idle step answers. -/
theorem nothingHappensAfterTheEnd : Obligations.NothingHappensAfterTheEnd := by
  intro s t hs hend h
  rcases step_of_inv hs h with rfl | ⟨i, os, ran⟩
  · rfl
  · have before : s.life = .reset ∨ s.life = .ready := ran.life_before.imp And.right And.right
    rcases before with hl | hl <;> simp [hl] at hend

/-- Settles O28: the fields of the reset state as written. -/
theorem resetValues : Obligations.ResetValues := ⟨rfl, rfl, rfl, rfl, rfl, rfl, rfl, rfl, rfl⟩

/-- Settles O30: reset is idle in RESET with no error, and its DDRAM lists no cell. -/
theorem invariantHoldsAtReset : Obligations.InvariantHoldsAtReset where
  op_none := rfl
  rest_nil := rfl
  pc_zero := rfl
  not_initializing := by simp [State.reset]
  failed_iff_status := by simp [State.reset]
  failed_iff_step := by simp [State.reset]
  step_from_two := by simp [State.reset]
  failed_has_kind := by simp [State.reset]
  ddram_wf := Memory.nil_wf

/-! Frames. -/

/-- Settles O34: what every step emits says that the configuration is kept. -/
theorem configurationNeverChanges : Obligations.ConfigurationNeverChanges :=
  fun _ _ h => (step_emits h).1

theorem Emits.trace_prefix {s t : State} (h : Emits s t) : s.trace <+: t.trace := by
  obtain ⟨-, new, htrace, -⟩ := h
  exact ⟨new, htrace.symm⟩

/-- A command is an operation of the port, and neither INIT nor DETACH (30_encoding.md R63). -/
theorem onPort_of_isCommand {i : Instr} (h : i.isCommand = true) : i.onPort = true ∧ i ≠ .init ∧ i ≠ .detach := by
  cases i <;> simp_all [Instr.isCommand, Instr.onPort]

/-- Settles O46, by the ends of an operation that is neither INIT nor DETACH. -/
theorem commandFrame : Obligations.CommandFrame := by
  intro i s t hi ho h
  obtain ⟨hp, hinit, hdetach⟩ := onPort_of_isCommand hi
  have ran := operationRan_of_exec hp ho h
  obtain ⟨hlife, hstep, hkind⟩ :
      t.life = s.life ∧ t.errStep = s.errStep ∧ (t.status = .ok → t.errKind = s.errKind) := by
    cases ran.ending with
    | ok _ life kind step => exact ⟨by simpa [lifeAtEnd, hinit, hdetach] using life, step, fun _ => kind⟩
    | initError form => exact absurd form hinit
    | busError _ status life step => exact ⟨life, step, by simp [status]⟩
  exact ⟨ran.emits.1, ran.offers, hlife, hstep, ran.emits.trace_prefix, hkind⟩

/-- Settles O47: only the failing end writes the error fields. -/
theorem initFrame : Obligations.InitFrame := by
  intro s t ho h
  have ran := operationRan_of_exec rfl ho h
  refine ⟨ran.emits.1, ran.offers, ran.emits.trace_prefix, fun hok => ?_⟩
  cases ran.ending with
  | ok _ _ kind step => exact ⟨kind, step⟩
  | initError _ status => simp [status] at hok
  | busError form => exact absurd rfl form

/-! The blocking port (R22). -/

theorem runActs_offers (acts : List Act) (s : State) : (runActs acts s).state.offers = s.offers := by
  induction acts generalizing s with
  | nil => rfl
  | cons a acts ih =>
    cases a with
    | send n rs en ph =>
      simp only [runActs]
      split
      · simpa using ih ((s.sent (fmt s.cfg n rs en)).setPhase ph)
      · simp [Run.state, raise_offers]
    | wait w => simpa [runActs] using ih (s.waits w)
    | nib k => simpa [runActs] using ih (s.setNib k)

/-- A primitive of a running operation, as an instruction, runs as the operation runs it (30_encoding.md R64). -/
theorem exec_prim (p : Prim) {s : State} (hc : s.cfg.legal = true) : exec p.toInstr s = .next (runPrim p s).state := by
  have hbit (rs : Bool) : decide (rs.toNat = 1) = rs ∧ rs.toNat < 2 := by cases rs <;> decide
  cases p with
  | nibble n rs =>
    simp [Prim.toInstr, exec, execNibble, runPrimitive, Instr.wellFormed, hc, hbit, n.isLt]
  | byte v rs =>
    simp [Prim.toInstr, exec, execByte, runPrimitive, Instr.wellFormed, hc, hbit, v.isLt]
  | wait t => simp [Prim.toInstr, exec, execWait, runPrimitive, Instr.wellFormed, hc]

/-- A step of a running operation is its next primitive. -/
theorem step_of_rest {s : State} {m : Micro} {ms : List Micro} (hr : s.rest = m :: ms) (hc : s.cfg.legal = true) :
    step s = .next (runPrim m.prim (s.enter m ms)).state := by
  simp [step, fetch, hr, exec_prim, hc]

/-- With no primitive left, a step is the normal end of the running operation (60_exceptions.md R135). -/
theorem step_of_due {s : State} {i : Instr} (ho : s.op = some i) (hr : s.rest = []) : step s = .next s.finish := by
  simp [step, fetch, hr, ho]

/-- An idle block to which nothing is offered steps to itself. -/
theorem step_of_unoffered {s : State} (ho : s.op = none) (hr : s.rest = []) (hf : s.offers = []) :
    step s = .next s := by
  simp [step, fetch, hr, ho, hf]

theorem run_of_unoffered {s : State} (ho : s.op = none) (hr : s.rest = []) (hf : s.offers = []) (n : Nat) :
    Host.Core.run core n s = .next s := by
  induction n with
  | zero => rfl
  | succ n ih => exact (run_of_step (step_of_unoffered ho hr hf)).trans ih

/-- The steps of a running operation, one for each primitive left and one for its normal end, lead where its body does. -/
theorem run_running {i : Instr} (ms : List Micro) {s : State} (ho : s.op = some i) (hr : s.rest = ms)
    (hf : s.offers = []) (hc : s.cfg.legal = true) :
    Host.Core.run core (ms.length + 1) s = .next (runMicros ms s) := by
  induction ms generalizing s with
  | nil => exact run_of_step (M := core) (n := 0) (step_of_due ho hr)
  | cons m ms ih =>
    have hstep : Host.Core.run core ((m :: ms).length + 1) s = _ := run_of_step (step_of_rest hr hc)
    have hoffers : (runPrim m.prim (s.enter m ms)).state.offers = s.offers := runActs_offers _ _
    have hcfg : (runPrim m.prim (s.enter m ms)).state.cfg = s.cfg := (runActs_emits _ _).1
    rw [hstep, runMicros]
    cases hrun : runPrim m.prim (s.enter m ms) with
    | going t =>
      obtain ⟨hop, hrest⟩ := runActs_going hrun
      rw [hrun] at hoffers hcfg
      exact ih (hop.trans ho) hrest (hoffers.trans hf) ((congrArg Cfg.legal hcfg).trans hc)
    | ended t =>
      obtain ⟨hop, hrest, -⟩ := runActs_ended hrun
      rw [hrun] at hoffers
      exact run_of_unoffered hop hrest (hoffers.trans hf) _

/-- Running an operation whole is running its primitives step by step (30_encoding.md R64). -/
theorem run_eq_drain {s : State} {i : Instr} (ho : s.op = some i) (hf : s.offers = []) (hc : s.cfg.legal = true) :
    Host.Core.run core (s.rest.length + 1) s = .next s.drain := by
  rw [run_running s.rest ho rfl hf hc, State.drain, ho]

/-- An operation of the port is answered as in the state the running one ends in. -/
theorem exec_drain {i : Instr} (hp : i.onPort = true) (s : State) : exec i s = exec i s.drain := by
  obtain ⟨body, hexec, -⟩ := exec_onPort i hp
  rw [hexec, hexec, runOperation, runOperation, drain_of_idle (drain_idle s)]

/-- Settles O26: the state the steps lead to is the one that exec drains to first. -/
theorem portBlocksWhileAnOperationRuns : Obligations.PortBlocksWhileAnOperationRuns :=
  ⟨fun _ _ s hp ho hf hc => ⟨s.drain, run_eq_drain ho hf hc, drain_idle s, exec_drain hp s⟩,
    fun _ s hp => ⟨exec_drain hp s, drain_idle s⟩⟩

end Sys2Proof.Machine
end

section
/-! PROOFS. The write-only bus (20_memory.md): what a send and a byte at the port do (R43, R52, R55), what every send carries
(R42), the refused read (R45), and that nothing behind the bus reaches the block (R45, R55). -/

namespace Sys2Proof.Machine

/-! One send. -/

/-- Settles O19, by whether the byte reached the port; a send answered `ok` did. -/
theorem sendSetsOrKeepsThePort : Obligations.SendSetsOrKeepsThePort := by
  intro b s
  refine ⟨fun hok => State.sent_port_of_lands (lands_of_reply_ok hok), ?_⟩
  cases hl : (s.turnAt 0).lands with
  | true => exact .inl (State.sent_port_of_lands hl)
  | false => exact .inr (State.sent_port_of_not_lands hl)

/-- Without a falling edge of E only the time starts again (R56). -/
theorem observe_of_no_fall {c : Cfg} {p q : Byte} {k : Ctl}
    (h : ¬ (p.getLsbD c.enBit = true ∧ q.getLsbD c.enBit = false)) :
    k.observe c p q = k.restart (k.late || tooEarly c p q k) := by
  have h' : (p.getLsbD c.enBit && !q.getLsbD c.enBit) = false := by simpa using h
  simp [Ctl.observe, h']

/-- Settles O57: starting the time again writes nothing that the controller shows or holds. -/
theorem onlyAFallingEdgeDelivers : Obligations.OnlyAFallingEdgeDelivers := by
  intro c p q k h
  rw [observe_of_no_fall h]
  exact ⟨rfl, rfl, rfl, rfl, fun _ => rfl⟩

/-- A falling edge comes too early within T_EP of the last byte, or within the time owed (70_reset_and_hazards.md R161). -/
theorem tooEarly_of_fall {c : Cfg} {p q : Byte} {k : Ctl} (hp : p.getLsbD c.enBit = true)
    (hq : q.getLsbD c.enBit = false) (h : k.waited < 500 ∨ k.waited < k.owed) : tooEarly c p q k = true := by
  rcases h with h | h <;> simp [tooEarly, hp, hq, WaitName.micros, h]

/-- Settles O58: the latch after a broken rule is a draw. -/
theorem brokenTimingLosesTheController : Obligations.BrokenTimingLosesTheController := by
  intro c p q k hp hq h
  simp [Ctl.observe, tooEarly_of_fall hp hq h, hp, hq, Ctl.lose]

/-- Settles O35: what every step emits are ExpanderBytes, and their low bits are those of the formatter. -/
theorem everySendCarriesBacklightAndAddress : Obligations.EverySendCarriesBacklightAndAddress := by
  intro s t hc h
  obtain ⟨hcfg, new, htrace, hsends⟩ := step_emits h
  refine ⟨hcfg, new, htrace, fun dev b r hmem => ?_⟩
  obtain ⟨hdev, n, rs, en, rfl⟩ := hsends dev b r hmem
  exact ⟨hdev, fmt_blBit hc n rs en, fun j hj h1 h2 h3 => fmt_unused s.cfg n rs en hj h1 h2 h3⟩

/-- Settles O25: the fetch refuses both before anything runs. -/
theorem readsAndPrimitivesRefusedAtThePort : Obligations.ReadsAndPrimitivesRefusedAtThePort := by
  intro s os ho hr
  constructor
  · intro hoffers
    simp [step, fetch, hr, ho, hoffers, takeOffer]
  · intro i hi hoffers
    simp [step, fetch, hr, ho, hoffers, takeOffer, offered, hi]

/-! Two blocks that differ only behind the bus run alike. -/

theorem sameBlock_iff {s t : State} : SameBlock s t ↔ ∃ p k, t = { s with port := p, ctl := k } :=
  ⟨fun h => ⟨t.port, t.ctl, h.symm⟩, by rintro ⟨p, k, rfl⟩; rfl⟩

/-- An update of the block that reads and writes neither the port nor the controller keeps the likeness. -/
theorem SameBlock.map {s t : State} (h : SameBlock s t) (f : State → State)
    (hf : ∀ p k, SameBlock (f s) (f { s with port := p, ctl := k })) : SameBlock (f s) (f t) := by
  obtain ⟨p, k, rfl⟩ := sameBlock_iff.1 h
  exact hf p k

theorem SameBlock.cfg {s t : State} (h : SameBlock s t) : t.cfg = s.cfg := (congrArg State.cfg h).symm

theorem SameBlock.life {s t : State} (h : SameBlock s t) : t.life = s.life := (congrArg State.life h).symm

/-- The bus oracle stands before the port. -/
theorem SameBlock.turnAt {s t : State} (h : SameBlock s t) (j : Nat) : t.turnAt j = s.turnAt j :=
  State.turnAt_congr (congrArg State.answers h).symm (congrArg State.sends h).symm j

theorem SameBlock.sent {s t : State} (h : SameBlock s t) (b : Byte) : SameBlock (s.sent b) (t.sent b) := by
  refine h.map (State.sent b) fun p k => ?_
  unfold State.sent
  rw [SameBlock.turnAt (s := s) (t := { s with port := p, ctl := k }) rfl 0]
  split <;> rfl

theorem SameBlock.raise {s t : State} (h : SameBlock s t) (kind : BusKind) :
    SameBlock (s.raise kind) (t.raise kind) := by
  refine h.map (State.raise kind) fun p k => ?_
  unfold State.raise
  split <;> rfl

/-- Two runs of statements come out alike. -/
inductive SameRun : Run → Run → Prop where
  | going {s t : State} (h : SameBlock s t) : SameRun (.going s) (.going t)
  | ended {s t : State} (h : SameBlock s t) : SameRun (.ended s) (.ended t)

theorem SameRun.state {a b : Run} (h : SameRun a b) : SameBlock a.state b.state := by
  cases h <;> assumption

/-- The statements read the bus oracle and the configuration, and nothing that stands behind the bus. -/
theorem SameBlock.runActs {s t : State} (h : SameBlock s t) (acts : List Act) :
    SameRun (runActs acts s) (runActs acts t) := by
  induction acts generalizing s t with
  | nil => exact .going h
  | cons a acts ih =>
    cases a with
    | send n rs en ph =>
      have hsent := h.sent (fmt s.cfg n rs en)
      simp only [Machine.runActs, h.turnAt, h.cfg]
      split
      · exact ih (hsent.map (State.setPhase ph) fun _ _ => rfl)
      · exact .ended (hsent.raise _)
    | wait w => exact ih (h.map (State.waits w) fun _ _ => rfl)
    | nib j => exact ih (h.map (State.setNib j) fun _ _ => rfl)

theorem SameBlock.runMicros {s t : State} (h : SameBlock s t) (ms : List Micro) :
    SameBlock (runMicros ms s) (runMicros ms t) := by
  induction ms generalizing s t with
  | nil => exact h.map State.finish fun _ _ => rfl
  | cons m ms ih =>
    have hrun := (h.map (State.enter m ms) fun _ _ => rfl).runActs (Prim.acts m.prim)
    simp only [Machine.runMicros, runPrim]
    generalize Machine.runActs (Prim.acts m.prim) (s.enter m ms) = a,
      Machine.runActs (Prim.acts m.prim) (t.enter m ms) = b at hrun
    cases hrun with
    | going h => exact ih h
    | ended h => exact h

theorem SameBlock.drain {s t : State} (h : SameBlock s t) : SameBlock s.drain t.drain := by
  have hop : t.op = s.op := (congrArg State.op h).symm
  have hrest : t.rest = s.rest := (congrArg State.rest h).symm
  unfold State.drain
  rw [hop, hrest]
  cases s.op with
  | none => exact h
  | some i => exact h.runMicros s.rest

/-- Two outcomes are the same refusal, or next states that differ only behind the bus. -/
inductive SameOutcome : Host.Outcome State Fault Refusal → Host.Outcome State Fault Refusal → Prop where
  | next {s t : State} (h : SameBlock s t) : SameOutcome (.next s) (.next t)
  | refused (r : Refusal) : SameOutcome (.refused r) (.refused r)

theorem SameBlock.runOperation {s t : State} (h : SameBlock s t) (i : Instr) (body : List Micro) :
    SameOutcome (runOperation i body s) (runOperation i body t) := by
  have hdrain := h.drain
  have hrefusal : refusal? i t.drain = refusal? i s.drain := by simp only [refusal?, hdrain.cfg, hdrain.life]
  unfold Machine.runOperation
  rw [hrefusal]
  cases refusal? i s.drain with
  | some r => exact .refused r
  | none => exact .next ((hdrain.map (State.start i body) fun _ _ => rfl).runMicros body)

theorem SameBlock.runPrimitive {s t : State} (h : SameBlock s t) (i : Instr) (p : Prim) :
    SameOutcome (runPrimitive i p s) (runPrimitive i p t) := by
  unfold Machine.runPrimitive
  rw [h.cfg]
  split
  · exact .refused _
  · split
    · exact .refused _
    · exact .next (h.runActs _).state

theorem SameBlock.exec {s t : State} (h : SameBlock s t) (i : Instr) : SameOutcome (exec i s) (exec i t) := by
  cases hp : i.onPort with
  | true =>
    obtain ⟨body, hexec, -⟩ := exec_onPort i hp
    rw [hexec, hexec]
    exact h.runOperation i body
  | false =>
    obtain ⟨p, hexec⟩ := exec_offPort i hp
    rw [hexec, hexec]
    exact h.runPrimitive i p

/-- Settles O36: operations and primitives run alike in two blocks that differ only behind the bus. -/
theorem controllerNeverReachesTheBlock : Obligations.ControllerNeverReachesTheBlock := by
  intro i s p k
  have hsame := SameBlock.exec (sameBlock_iff.2 ⟨p, k, rfl⟩ : SameBlock s { s with port := p, ctl := k }) i
  generalize exec i s = a, exec i { s with port := p, ctl := k } = b at hsame
  cases hsame with
  | next h => exact h
  | refused r => rfl

end Sys2Proof.Machine
end

section
/-! PROOFS. The controller behind the bus, primitive by primitive: the first nibble of a byte (20_memory.md R59), a whole byte
(R59, R60), and the three raw nibbles that force 8-bit mode (R58). -/

namespace Sys2Proof.Machine

/-! One primitive run by exec. -/

/-- A primitive with its operands in range runs through on a fault-free bus. -/
theorem runPrimitive_ok {i : Instr} {p : Prim} {s : State} (hi : i.wellFormed = true) (hc : s.cfg.legal = true)
    (hf : FaultFree (actSends (Prim.acts p)) s) :
    ∃ t, runPrimitive i p s = .next t ∧ Advance (actSends (Prim.acts p)) (actsTrace s.cfg (Prim.acts p)) s t := by
  obtain ⟨t, ht, a, -, -⟩ := runActs_ok hf
  exact ⟨t, by simp [runPrimitive, hi, hc, runPrim, ht, Run.state], a⟩

theorem exec_nibble_ok {n rs : Nat} {s : State} (hn : n < 16) (hrs : rs < 2) (hc : s.cfg.legal = true)
    (hf : FaultFree 3 s) : ∃ t, exec (.nibble n rs) s = .next t ∧
      Advance 3 (nibbleTrace s.cfg (BitVec.ofNat 4 n) (decide (rs = 1))) s t :=
  runPrimitive_ok (p := .nibble (BitVec.ofNat 4 n) (decide (rs = 1))) (by simp [Instr.wellFormed, hn, hrs]) hc hf

theorem exec_byte_ok {v rs : Nat} {s : State} (hv : v < 256) (hrs : rs < 2) (hc : s.cfg.legal = true)
    (hf : FaultFree 6 s) : ∃ t, exec (.byte v rs) s = .next t ∧
      Advance 6 (byteTrace s.cfg (BitVec.ofNat 8 v) (decide (rs = 1))) s t :=
  runPrimitive_ok (p := .byte (BitVec.ofNat 8 v) (decide (rs = 1))) (by simp [Instr.wellFormed, hv, hrs]) hc hf

theorem exec_wait_ok (w : WaitName) {s : State} (hc : s.cfg.legal = true) :
    ∃ t, exec (.wait w) s = .next t ∧ Advance 0 [.wait w] s t :=
  runPrimitive_ok (i := .wait w) (p := .wait w) rfl hc (faultFree_zero s)

/-- In 4-bit mode with a high nibble expected, a latch holds its nibble and changes nothing shown (20_memory.md R59). -/
theorem latch_first (n : Nibble) (rs : Bool) {k : Ctl} (hm : k.mode = .m4) (hh : k.half = .hi) :
    SameShown (latch n rs k) k ∧ (latch n rs k).hi = n ∧ (latch n rs k).half = .lo ∧ (latch n rs k).mode = .m4 := by
  obtain ⟨shown, fm, fh, fi, -⟩ := count3_fields n rs { k with hi := n, half := .lo }
  rw [latch_hi hm hh]
  exact ⟨⟨shown.regs, shown.ddram, shown.era, shown.draws⟩, fi, fh, fm.trans hm⟩

/-- Settles O55: in step, the latch of the first nibble holds it as the high half. -/
theorem firstNibbleIsHeld : Obligations.FirstNibbleIsHeld := by
  intro n rs s hn hrs hc hs hf
  obtain ⟨hm, hh, hl, ho, hE⟩ := hs
  obtain ⟨t, ht, a⟩ := exec_nibble_ok hn hrs hc hf
  have hctl : t.ctl = latch (BitVec.ofNat 4 n) (decide (rs = 1)) (s.ctl.restart false) :=
    a.ctl.trans (congrArg Prod.snd (seen_nibble hc _ _ hE ⟨hl, ho⟩))
  obtain ⟨shown, hi, half, mode⟩ := hctl ▸ latch_first _ _ (k := s.ctl.restart false) hm hh
  exact ⟨t, ht, hi, half, mode, shown.regs, shown.cell⟩

/-! One byte. -/

/-- What a data byte does to what is shown depends on what is shown alone. -/
theorem deliverData_congr {a b : Ctl} (h : SameShown a b) (hm : a.mode = b.mode) (d : Byte) :
    SameShown (deliverData d a) (deliverData d b) ∧ (deliverData d a).mode = (deliverData d b).mode := by
  unfold deliverData
  rw [h.regs]
  split
  · exact ⟨⟨by simp [h.draws], by simp [h.ddram], h.era, by simp [h.draws]⟩, hm⟩
  · exact ⟨⟨by simp [h.draws], rfl, h.draws, by simp [h.draws]⟩, hm⟩

theorem lose_congr {a b : Ctl} (h : SameShown a b) : SameShown a.lose b.lose ∧ a.lose.mode = b.lose.mode :=
  ⟨⟨congrArg Config.freeRegs h.draws, rfl, h.draws, congrArg (· + 1) h.draws⟩, rfl⟩

/-- What an instruction byte does to what is shown depends on the mode and on what is shown alone. -/
theorem deliverCode_congr {a b : Ctl} (h : SameShown a b) (hm : a.mode = b.mode) (c : Byte) :
    SameShown (deliverCode c a) (deliverCode c b) ∧ (deliverCode c a).mode = (deliverCode c b).mode := by
  have set_regs (f : Regs → Regs) : SameShown { a with regs := f a.regs } { b with regs := f b.regs } :=
    ⟨congrArg f h.regs, h.ddram, h.era, h.draws⟩
  unfold deliverCode
  split
  · exact ⟨⟨congrArg clearRegs h.regs, rfl, h.era, h.draws⟩, hm⟩
  split
  · exact ⟨⟨congrArg homeRegs h.regs, h.ddram, h.era, h.draws⟩, hm⟩
  split
  · exact ⟨set_regs (setEntryMode c), hm⟩
  split
  · exact ⟨set_regs (setDisplayControl c), hm⟩
  split
  · rw [hm]
    split
    · exact lose_congr h
    · exact ⟨⟨congrArg (setFunction c) h.regs, h.ddram, h.era, h.draws⟩, rfl⟩
  split
  · exact ⟨set_regs (setAddress c), hm⟩
  · exact lose_congr h

theorem deliver_congr {a b : Ctl} (h : SameShown a b) (hm : a.mode = b.mode) (rs : Bool) (c : Byte) :
    SameShown (deliver rs c a) (deliver rs c b) ∧ (deliver rs c a).mode = (deliver rs c b).mode := by
  cases rs with
  | true => exact deliverData_congr h hm c
  | false => exact deliverCode_congr h hm c

/-- Settles O56: the controller the byte is delivered to shows what it showed before. -/
theorem byteIsDeliveredOnce : Obligations.ByteIsDeliveredOnce := by
  intro v rs s hv hrs hc hs hf
  obtain ⟨hm, hh, hl, ho, hE⟩ := hs
  obtain ⟨t, ht, a⟩ := exec_byte_ok hv hrs hc hf
  obtain ⟨j, hseen, hshown, jm, -⟩ := seen_byte hc (BitVec.ofNat 8 v) (decide (rs = 1)) hE ⟨hl, ho⟩ hm hh
  have hctl : t.ctl = count3 _ _ (deliver (decide (rs = 1)) (BitVec.ofNat 8 v) j) :=
    a.ctl.trans (congrArg Prod.snd hseen)
  obtain ⟨counted, cm, -⟩ := hctl ▸ count3_fields _ _ (deliver (decide (rs = 1)) (BitVec.ofNat 8 v) j)
  obtain ⟨delivered, dm⟩ := deliver_congr hshown (jm.trans hm.symm) (decide (rs = 1)) (BitVec.ofNat 8 v)
  exact ⟨t, ht, counted.regs.trans delivered.regs, cm.trans dm,
    fun a => (counted.cell a).trans (delivered.cell a)⟩

/-! The raw nibbles 0x3. -/

/-- `a` is `b` after a delivery: the same count of 0x3 latches, no time passed, and at most T_CLR owed if nothing was. -/
structure SameClock (a b : Ctl) : Prop where
  n3 : a.n3 = b.n3
  late : a.late = b.late
  waited : a.waited = b.waited
  owed : a.owed = b.owed ∨ a.owed = 2000

theorem lose_clock (k : Ctl) : SameClock k.lose k := ⟨rfl, rfl, rfl, .inl rfl⟩

/-- No delivered byte touches the count or the time that has passed; Clear and ReturnHome owe T_CLR
(70_reset_and_hazards.md R161). -/
theorem deliver_clock (rs : Bool) (c : Byte) (k : Ctl) : SameClock (deliver rs c k) k := by
  cases rs with
  | true =>
    simp only [deliver, if_true, deliverData]
    split <;> exact ⟨rfl, rfl, rfl, .inl rfl⟩
  | false =>
    simp only [deliver, Bool.false_eq_true, if_false, deliverCode]
    split
    · exact ⟨rfl, rfl, rfl, .inr rfl⟩
    split
    · exact ⟨rfl, rfl, rfl, .inr rfl⟩
    repeat' split
    all_goals exact ⟨rfl, rfl, rfl, .inl rfl⟩

theorem latchM4_clock (n : Nibble) (rs : Bool) (k : Ctl) : SameClock (latchM4 n rs k) k := by
  unfold latchM4
  split
  · exact ⟨rfl, rfl, rfl, .inl rfl⟩
  · obtain ⟨h1, h2, h3, h4⟩ := deliver_clock rs (joinNibbles k.hi n) { k with half := .hi }
    exact ⟨h1, h2, h3, h4⟩

theorem latchM8_clock (n : Nibble) (rs : Bool) (k : Ctl) : SameClock (latchM8 n rs k) k := by
  obtain ⟨h1, h2, h3, h4⟩ :=
    deliver_clock rs (joinNibbles n (Config.freeNibble k.draws)) { k with draws := k.draws + 1 }
  unfold latchM8
  simp only
  split <;> exact ⟨h1, h2, h3, h4⟩

/-- A latch of 0x3 on the instruction path waits for its T_INIT3 to count, in every mode (R58). -/
theorem latch_three (k : Ctl) : ∃ k', latch 0x3#4 false k = { k' with pend3 := true } ∧ SameClock k' k := by
  unfold latch
  split
  · exact ⟨k.lose, rfl, lose_clock k⟩
  · exact ⟨_, rfl, latchM8_clock _ _ k⟩
  · exact ⟨_, rfl, latchM4_clock _ _ k⟩

/-- What a latch of 0x3 made at `k`, with its T_INIT3 waited out, leaves: one latch more is counted, and the third forces 8-bit
mode (R58). -/
structure CountedThree (k k' : Ctl) : Prop where
  calm : k'.calm
  pend3 : k'.pend3 = false
  n3 : k'.n3 = (k.restart false).n3 + 1
  forced : 3 ≤ k'.n3 → k'.mode = .m8

theorem latch_three_waited (k : Ctl) : CountedThree k ((latch 0x3#4 false (k.restart false)).passed .tINIT3) := by
  obtain ⟨k', hlatch, hn, hl, hw, ho⟩ := latch_three (k.restart false)
  have hw0 : k'.waited = 0 := hw
  have ho0 : k'.owed ≤ 5000 := by
    rcases ho with h | h <;> rw [h]
    · exact Nat.zero_le _
    · decide
  have hpassed : ({ k' with pend3 := true } : Ctl).passed .tINIT3 =
      { k' with waited := 5000, pend3 := false, n3 := k'.n3 + 1, mode := if 3 ≤ k'.n3 + 1 then .m8 else k'.mode } := by
    simp [Ctl.passed, hw0, WaitName.micros]
  rw [hlatch, hpassed]
  exact ⟨⟨hl, ho0⟩, rfl, congrArg (· + 1) hn, fun h => if_pos h⟩

/-- A raw nibble 0x3 and its wait (43_init_sequencer.md R120). -/
def rawThree (c : Cfg) : List Event := nibbleTrace c 0x3#4 false ++ [.wait .tINIT3]

theorem seen_rawThree {c : Cfg} (hc : c.legal = true) {x : Byte × Ctl} (hE : x.1.getLsbD c.enBit = false)
    (hk : x.2.calm) : (seen c (rawThree c) x).1.getLsbD c.enBit = false ∧
      CountedThree x.2 (seen c (rawThree c) x).2 := by
  rw [rawThree, seen_append, seen_nibble hc _ _ hE hk]
  exact ⟨fmt_enBit hc _ _ false, latch_three_waited x.2⟩

/-- A latch that waits for nothing keeps its count when the time starts again. -/
theorem restart_n3 {k : Ctl} (h : k.pend3 = false) : (k.restart false).n3 = k.n3 := by
  simp [Ctl.restart, h]

/-- NIBBLE 3, 0 and WAIT T_INIT3 run by exec. -/
theorem exec_rawThree {n : Nat} {s : State} (hc : s.cfg.legal = true) (hf : FaultFree (3 + n) s)
    (hE : s.port.getLsbD s.cfg.enBit = false) (hk : s.ctl.calm) :
    ∃ a b, exec (.nibble 3 0) s = .next a ∧ exec (.wait .tINIT3) a = .next b ∧ b.cfg.legal = true ∧
      FaultFree n b ∧ b.port.getLsbD b.cfg.enBit = false ∧ CountedThree s.ctl b.ctl := by
  obtain ⟨a, ha, adv⟩ := exec_nibble_ok (n := 3) (rs := 0) (by decide) (by decide) hc (hf.mono (Nat.le_add_right 3 n))
  obtain ⟨b, hb, adv'⟩ := exec_wait_ok .tINIT3 (s := a) (adv.cfg ▸ hc)
  have advance : Advance 3 (rawThree s.cfg) s b := adv.trans adv'
  obtain ⟨hlow, counted⟩ := seen_rawThree hc (x := (s.port, s.ctl)) hE hk
  rw [← advance.seen] at hlow counted
  exact ⟨a, b, ha, hb, advance.cfg ▸ hc, hf.after advance, advance.cfg ▸ hlow, counted⟩

/-- Settles O59: each nibble with its wait adds one to the count, which is 3 at least after the third. -/
theorem threeRawNibblesForceEightBitMode : Obligations.ThreeRawNibblesForceEightBitMode := by
  intro s hc hf hE hl ho
  obtain ⟨a, b, ha, hb, hcb, hfb, hEb, first⟩ := exec_rawThree (n := 6) hc hf hE ⟨hl, ho⟩
  obtain ⟨c, d, hc', hd, hcd, hfd, hEd, second⟩ := exec_rawThree (n := 3) hcb hfb hEb first.calm
  obtain ⟨e, t, he, ht, -, -, -, third⟩ := exec_rawThree (n := 0) hcd hfd hEd second.calm
  refine ⟨a, b, c, d, e, t, ha, hb, hc', hd, he, ht, third.forced ?_⟩
  rw [third.n3, restart_n3 second.pend3, second.n3, restart_n3 first.pend3, first.n3]
  omega

end Sys2Proof.Machine
end

section
/-! PROOFS. The commands at a controller in step (20_memory.md R53, R60): what each sets, what it stores, and that the
controller stays in step. -/

namespace Sys2Proof.Machine

/-! The commands that store nothing. -/

/-- The commands that only set registers of the controller, with what they make of them (R60, R47). -/
inductive Setting : Instr → (Regs → Regs) → Prop where
  | home : Setting .home fun r => { r with ac := 0#7 }
  | entry {dir shift : Nat} (hd : dir < 2) (hs : shift < 2) :
    Setting (.entry dir shift) fun r => { r with id := decide (dir = 1), sh := decide (shift = 1) }
  | dispctl {on cursor blink : Nat} (ho : on < 2) (hc : cursor < 2) (hb : blink < 2) :
    Setting (.dispctl on cursor blink) fun r =>
      { r with disp := decide (on = 1), cur := decide (cursor = 1), blink := decide (blink = 1) }
  | funcset {lines font : Nat} (hl : lines < 2) (hf : font < 2) :
    Setting (.funcset 0 lines font) fun r => { r with fn := BitVec.ofNat 8 (32 + 8 * lines + 4 * font) }
  | setddram {addr : Nat} (ha : addr < 128) : Setting (.setddram addr) fun r => { r with ac := BitVec.ofNat 7 addr }
  | setcursor {row col : Nat} (hr : row < 2) (hc : col < 256) :
    Setting (.setcursor row col) fun r =>
      { r with ac := BitVec.ofNat 7 (((if row = 0 then 0 else 64) + col) % 128) }

/-- A command is CLEAR, a WRITE, an 8-bit FUNCSET, or only sets registers. -/
theorem command_cases {i : Instr} (hi : i.isCommand = true) (hw : i.wellFormed = true) :
    i = .clear ∨ (∃ ch, i = .write ch) ∨ (∃ lines font, i = .funcset 1 lines font) ∨ ∃ f, Setting i f := by
  cases i <;> simp only [Instr.isCommand, reduceCtorEq] at hi <;>
    simp only [Instr.wellFormed, Bool.and_eq_true, decide_eq_true_eq] at hw
  case clear => exact .inl rfl
  case write ch => exact .inr (.inl ⟨ch, rfl⟩)
  case home => exact .inr (.inr (.inr ⟨_, .home⟩))
  case entry => exact .inr (.inr (.inr ⟨_, .entry hw.1 hw.2⟩))
  case dispctl => exact .inr (.inr (.inr ⟨_, .dispctl hw.1.1 hw.1.2 hw.2⟩))
  case setddram => exact .inr (.inr (.inr ⟨_, .setddram hw⟩))
  case setcursor => exact .inr (.inr (.inr ⟨_, .setcursor hw.1 hw.2⟩))
  case funcset width lines font =>
    obtain ⟨⟨hwidth, hl⟩, hf⟩ := hw
    rcases Nat.lt_succ_iff_lt_or_eq.1 hwidth with h0 | rfl
    · obtain rfl := Nat.lt_one_iff.1 h0
      exact .inr (.inr (.inr ⟨_, .funcset hl hf⟩))
    · exact .inr (.inr (.inl ⟨lines, font, rfl⟩))

theorem Setting.isCommand {i : Instr} {f : Regs → Regs} (h : Setting i f) : i.isCommand = true := by
  cases h <;> rfl

theorem Setting.wellFormed {i : Instr} {f : Regs → Regs} (h : Setting i f) : i.wellFormed = true := by
  cases h <;> simp [Instr.wellFormed, *]

/-- The code of a setting command, delivered, makes the registers what the command says; ReturnHome owes T_CLR (R60,
70_reset_and_hazards.md R161). -/
theorem Setting.delivered {i : Instr} {f : Regs → Regs} (h : Setting i f) {rs : Bool} {v : Byte}
    (hcode : encodeCode i = some (rs, v)) (k : Ctl) :
    deliver rs v k = { k with regs := f k.regs, owed := if i = .home then 2000 else k.owed } := by
  cases h <;> cases hcode
  case home => rfl
  case entry hd hs => exact deliver_entry _ _ hd hs k
  case dispctl ho hc hb => exact deliver_dispctl _ _ _ ho hc hb k
  case funcset hl hf => exact deliver_funcset0 _ _ hl hf k
  case setddram ha => exact deliver_addr _ k
  case setcursor hr hc =>
    rw [codeSetcursor, cursorAddress_sum]
    exact deliver_addr _ k

/-- A setting command on a fault-free bus at a controller in step sets its registers and leaves every cell. -/
theorem exec_setting {i : Instr} {f : Regs → Regs} (h : Setting i f) {s : State} (hidle : IdleIn .ready s)
    (hs : InStep s) (hf : FaultFree 6 s) :
    ∃ t, exec i s = .next t ∧ t.ctl.regs = f s.ctl.regs ∧ ∀ a, t.ctl.cell a = s.ctl.cell a := by
  obtain ⟨t, rs, v, j, ht, -, -, hcode, hfresh, -, -, -, hshown, -⟩ :=
    command_ctl h.isCommand h.wellFormed hidle hs hf
  rw [h.delivered hcode] at hshown
  exact ⟨t, ht, hshown.regs.trans (congrArg f hfresh.shown.regs),
    fun a => (hshown.cell a).trans (hfresh.shown.cell a)⟩

/-- A command that answers a next state in an idle block was admitted in READY. -/
theorem command_admitted {i : Instr} {s t : State} (hi : i.isCommand = true) (ho : s.op = none)
    (h : exec i s = .next t) : i.wellFormed = true ∧ IdleIn .ready s := by
  obtain ⟨hp, hinit, -⟩ := onPort_of_isCommand hi
  obtain ⟨body, hexec, -⟩ := exec_onPort i hp
  obtain ⟨hw, hidle, -⟩ := runOperation_next ho ((hexec s).symm.trans h)
  exact ⟨hw, by simpa [admittedIn, hinit] using hidle⟩

/-- Settles O48: the commands left are those that only set registers. -/
theorem nonStoringCommandsKeepDdram : Obligations.NonStoringCommandsKeepDdram := by
  intro i s t hi hclear hwrite hfuncset ho hs hf h
  obtain ⟨hw, hidle⟩ := command_admitted hi ho h
  rcases command_cases hi hw with rfl | ⟨ch, rfl⟩ | ⟨lines, font, rfl⟩ | ⟨f, hset⟩
  · exact absurd rfl hclear
  · exact absurd rfl (hwrite ch)
  · exact absurd rfl (hfuncset lines font)
  · obtain ⟨t', ht', -, hcell⟩ := exec_setting hset hidle hs hf
    cases h.symm.trans ht'
    exact hcell

/-- Settles O51, one setting command after the other. -/
theorem settingsReachTheController : Obligations.SettingsReachTheController := by
  intro s hidle hs hf
  have set {i : Instr} {f : Regs → Regs} (h : Setting i f) :
      ∃ t, exec i s = .next t ∧ t.ctl.regs = f s.ctl.regs := by
    obtain ⟨t, ht, hregs, -⟩ := exec_setting h hidle hs hf
    exact ⟨t, ht, hregs⟩
  exact ⟨set .home, fun _ _ hd hsh => set (.entry hd hsh), fun _ _ _ ho hc hb => set (.dispctl ho hc hb),
    fun _ _ hl hfo => set (.funcset hl hfo), fun _ ha => set (.setddram ha), fun _ _ hr hc => set (.setcursor hr hc)⟩

/-! CLEAR and WRITE. -/

theorem cell_of_blank {k : Ctl} (h : k.ddram = Memory.blank) (a : Addr) : k.cell a = 0x20#8 := by
  simp only [Ctl.cell, h, Memory.read_blank]

/-- Settles O50: the code of CLEAR fills the DDRAM and homes the cursor. -/
theorem clearEmptiesTheDisplay : Obligations.ClearEmptiesTheDisplay := by
  intro s hidle hs hf
  obtain ⟨t, rs, v, j, ht, -, -, hcode, hfresh, -, -, -, hshown, -⟩ := command_ctl (i := .clear) rfl rfl hidle hs hf
  cases hcode
  exact ⟨t, ht, cell_of_blank hshown.ddram, hshown.regs.trans (congrArg clearRegs hfresh.shown.regs)⟩

/-- A data byte with the address counter inside the lines (R60). -/
theorem deliver_data {k : Ctl} (h : inLines k.regs.ac = true) (d : Byte) : deliver true d k =
    { k with ddram := k.ddram.write k.regs.ac.toNat d,
             regs := { k.regs with ac := if k.regs.id then nextCell k.regs.ac else prevCell k.draws k.regs.ac },
             draws := k.draws + 1 } := if_pos h

theorem cell_of_write_same {k j : Ctl} {x : Addr} {d : Byte} (h : k.ddram = j.ddram.write x.toNat d) :
    k.cell x = d := by
  simp only [Ctl.cell, h, Memory.read_write_same]

theorem cell_of_write_other {k j : Ctl} {x a : Addr} {d : Byte} (h : k.ddram = j.ddram.write x.toNat d)
    (he : k.era = j.era) (ha : a ≠ x) : k.cell a = j.cell a := by
  simp only [Ctl.cell, h, he, Memory.read_write_other _ d (BitVec.toNat_ne.1 ha)]

/-- The address counter moves up by one, and from the end of a line to the other line (R60). -/
theorem nextCell_toNat : ∀ a : Addr, inLines a = true → (nextCell a).toNat =
    if a.toNat = 0x27 then 0x40 else if a.toNat = 0x67 then 0x00 else a.toNat + 1 := by decide

/-- Inside a line the address counter moves down by one (R60). -/
theorem prevCell_toNat (draw : Nat) {a : Addr} (h0 : a.toNat ≠ 0x00) (h40 : a.toNat ≠ 0x40) :
    (prevCell draw a).toNat = a.toNat - 1 := by
  have h : ¬ (a = 0x00#7 ∨ a = 0x40#7) := by
    rintro (rfl | rfl)
    · exact h0 rfl
    · exact h40 rfl
  rw [prevCell, if_neg h]
  bv_omega

/-- Settles O49: the delivered data byte is stored at the address counter, which then moves by the entry mode. -/
theorem writeStoresAtTheAddressCounter : Obligations.WriteStoresAtTheAddressCounter := by
  intro ch s hch hidle hs hf hac
  obtain ⟨t, rs, v, j, ht, -, -, hcode, hfresh, -, -, -, hshown, -⟩ :=
    command_ctl (i := .write ch) rfl (by simp [Instr.wellFormed, hch]) hidle hs hf
  cases hcode
  have hregs : j.regs = s.ctl.regs := hfresh.shown.regs
  have hlines : inLines s.ctl.regs.ac = true := by simpa [inLines] using hac
  rw [deliver_data (hregs ▸ hlines), hregs] at hshown
  have hto : t.ctl.regs = { s.ctl.regs with
      ac := if s.ctl.regs.id then nextCell s.ctl.regs.ac else prevCell j.draws s.ctl.regs.ac } := hshown.regs
  refine ⟨t, ht, cell_of_write_same hshown.ddram, fun a ha => ?_, by rw [hto], fun hid => ?_, fun hid h0 h40 => ?_⟩
  · exact (cell_of_write_other hshown.ddram hshown.era ha).trans (hfresh.shown.cell a)
  · rw [hto, hid]
    exact nextCell_toNat _ hlines
  · rw [hto, hid]
    exact prevCell_toNat _ h0 h40

/-! In step. -/

/-- Of the pairing and the time, a delivered command other than an 8-bit FUNCSET writes the T_CLR that CLEAR and HOME owe and
nothing more (R59, 70_reset_and_hazards.md R161). -/
theorem deliver_pairing {i : Instr} (hi : i.isCommand = true) (hw : i.wellFormed = true)
    (hfuncset : ∀ lines font, i ≠ .funcset 1 lines font) {rs : Bool} {v : Byte}
    (hcode : encodeCode i = some (rs, v)) (k : Ctl) :
    (deliver rs v k).mode = k.mode ∧ (deliver rs v k).half = k.half ∧
      (deliver rs v k).owed = if i = .clear ∨ i = .home then 2000 else k.owed := by
  rcases command_cases hi hw with rfl | ⟨ch, rfl⟩ | ⟨lines, font, rfl⟩ | ⟨f, hset⟩
  · cases hcode
    exact ⟨rfl, rfl, rfl⟩
  · cases hcode
    simp only [deliver, if_true, deliverData]
    split <;> exact ⟨rfl, rfl, by simp⟩
  · exact absurd rfl (hfuncset lines font)
  · have hclear : i ≠ .clear := by rintro rfl; cases hset
    rw [hset.delivered hcode]
    exact ⟨rfl, rfl, by simp [hclear]⟩

/-- Settles O53: the byte is paired, E is low after it, and the wait after CLEAR and HOME covers the time they owe. -/
theorem commandsKeepTheControllerInStep : Obligations.CommandsKeepTheControllerInStep := by
  intro i s t hi hfuncset ho hs hf h
  obtain ⟨hw, hidle⟩ := command_admitted hi ho h
  obtain ⟨t', rs, v, j, ht', -, hhost, hcode, hfresh, hport, -, -, -, hmode, hhalf, hlate, howed, hwaited⟩ :=
    command_ctl hi hw hidle hs hf
  cases h.symm.trans ht'
  obtain ⟨dmode, dhalf, dowed⟩ := deliver_pairing hi hw hfuncset hcode j
  have hclock := deliver_clock rs v j
  refine ⟨?_, ?_, ?_, ?_, ?_⟩
  · rw [hmode, dmode, hfresh.mode]
  · rw [hhalf, dhalf, hfresh.half]
  · rw [hlate, hclock.late, hfresh.late]
  · rw [howed, dowed, hwaited, hclock.waited, hfresh.owed, hfresh.waited, Nat.zero_add]
  · rw [hport, hhost.1]
    exact fmt_enBit hidle.2.2 _ rs false

end Sys2Proof.Machine
end

section
/-! PROOFS. INIT on a fault-free bus (20_memory.md R57, R58, R60, 43_init_sequencer.md R116): three raw nibbles force 8-bit
mode, the fourth switches to 4-bit mode, and five commands set up a controller that is then in step. -/

namespace Sys2Proof.Machine

/-! The three raw nibbles 0x3. -/

/-- After its first send, a nibble raises and lowers E with T_EP between: one latch (20_memory.md R56). -/
theorem seen_pulse {c : Cfg} (hc : c.legal = true) (n : Nibble) (rs : Bool) {k : Ctl} (hl : k.late = false)
    (hw : k.waited = 0) (ho : k.owed ≤ 500) : seen c (nibbleTrace c n rs).tail (fmt c n rs false, k) =
      (fmt c n rs false, latch n rs (k.restart false)) := by
  have h1 : k.passed .tEP = { k with waited := 500 } := by simp [Ctl.passed, hw, WaitName.micros]
  have h2 : ({ k with waited := 500 } : Ctl).observe c (fmt c n rs false) (fmt c n rs true) = k.restart false :=
    observe_rise (fmt_enBit hc n rs false) (fmt_enBit hc n rs true) ⟨hl, ho⟩ (Nat.le_refl 500)
  have h3 : ((k.restart false).passed .tEP).observe c (fmt c n rs true) (fmt c n rs false) =
      latch n rs (k.restart false) := by
    rw [passed_idle .tEP rfl,
      observe_fall (fmt_enBit hc n rs true) (fmt_enBit hc n rs false) ⟨rfl, Nat.zero_le _⟩ (Nat.le_refl 500),
      highNibble_fmt hc, fmt_rsBit hc]
    rfl
  simp only [nibbleTrace, sendOk, List.tail_cons, seen, h1, h2, h3]

/-- The first raw nibble of INIT and its wait, to a controller in an unknown mode, whatever is at the port. With E high there
the first send latches too, but the next send comes before T_INIT3 and that latch does not count (R58). -/
theorem seen_first_raw {c : Cfg} (hc : c.legal = true) {p : Byte} {k : Ctl} (hk : k.calm) (hw : 500 ≤ k.waited)
    (hm : k.mode = .unknown) : (seen c (rawThree c) (p, k)).1.getLsbD c.enBit = false ∧
      ∃ k', CountedThree k' (seen c (rawThree c) (p, k)).2 := by
  cases hp : p.getLsbD c.enBit with
  | false =>
    obtain ⟨hlow, counted⟩ := seen_rawThree hc (x := (p, k)) hp hk
    exact ⟨hlow, k, counted⟩
  | true =>
    have hfall : k.observe c p (fmt c 0x3#4 false false) = { (k.restart false).lose with pend3 := true } := by
      rw [observe_fall hp (fmt_enBit hc _ _ false) hk hw, highNibble_fmt hc, fmt_rsBit hc]
      simp [latch, Ctl.restart, hm, count3]
    have hnibble : seen c (nibbleTrace c 0x3#4 false) (p, k) =
        seen c (nibbleTrace c 0x3#4 false).tail (fmt c 0x3#4 false false, k.observe c p (fmt c 0x3#4 false false)) := rfl
    rw [rawThree, seen_append, hnibble, hfall, seen_pulse hc _ _ rfl rfl (Nat.zero_le _)]
    simp only [seen]
    exact ⟨fmt_enBit hc _ _ false, _, latch_three_waited { (k.restart false).lose with pend3 := true }⟩

/-- Three raw nibbles, each with its T_INIT3, force 8-bit mode from an unknown one (R58). -/
theorem seen_three_raw {c : Cfg} (hc : c.legal = true) {p : Byte} {k : Ctl} (hk : k.calm) (hw : 500 ≤ k.waited)
    (hm : k.mode = .unknown) {x : Byte × Ctl} (hx : seen c (rawThree c ++ rawThree c ++ rawThree c) (p, k) = x) :
    x.1.getLsbD c.enBit = false ∧ x.2.calm ∧ x.2.mode = .m8 := by
  obtain ⟨hE1, k', first⟩ := seen_first_raw hc (p := p) hk hw hm
  rw [seen_append, seen_append] at hx
  generalize seen c (rawThree c) (p, k) = x1 at hx hE1 first
  obtain ⟨hE2, second⟩ := seen_rawThree hc hE1 first.calm
  generalize seen c (rawThree c) x1 = x2 at hx hE2 second
  obtain ⟨hE3, third⟩ := hx ▸ seen_rawThree hc hE2 second.calm
  refine ⟨hE3, third.calm, third.forced ?_⟩
  rw [third.n3, restart_n3 second.pend3, second.n3, restart_n3 first.pend3, first.n3]
  omega

/-! The switch to 4-bit mode. -/

/-- Only Clear and ReturnHome owe time (70_reset_and_hazards.md R161). -/
theorem deliverCode_owed {c : Byte} (h1 : c ≠ 0x01#8) (h2 : c ≠ 0x02#8) (k : Ctl) :
    (deliverCode c k).owed = k.owed := by
  rw [deliverCode, if_neg h1, if_neg h2]
  repeat' split
  all_goals rfl

/-- Nibble 0x2 on the instruction path takes a controller in 8-bit mode to 4-bit mode (R58). -/
theorem latch_two {k : Ctl} (hm : k.mode = .m8) (hk : k.calm) : (latch 0x2#4 false k).mode = .m4 ∧
    (latch 0x2#4 false k).half = .hi ∧ (latch 0x2#4 false k).calm := by
  have not_clear : ∀ f : Nibble, joinNibbles 0x2#4 f ≠ 0x01#8 ∧ joinNibbles 0x2#4 f ≠ 0x02#8 := by decide
  obtain ⟨h1, h2⟩ := not_clear (Config.freeNibble k.draws)
  have hclock := deliver_clock false (joinNibbles 0x2#4 (Config.freeNibble k.draws)) { k with draws := k.draws + 1 }
  have howed := deliverCode_owed h1 h2 { k with draws := k.draws + 1 }
  have hlatch : latch 0x2#4 false k = count3 0x2#4 false { deliverCode (joinNibbles 0x2#4 (Config.freeNibble k.draws))
      { k with draws := k.draws + 1 } with mode := .m4, half := .hi } := by
    simp [latch, hm, latchM8, deliver]
  rw [hlatch]
  refine ⟨rfl, rfl, hclock.late.trans hk.1, ?_⟩
  exact (howed.trans_le hk.2).trans_eq hclock.waited.symm

/-- A port `x.1` and a controller `x.2` behind it that are in step. -/
structure SeenInStep (c : Cfg) (x : Byte × Ctl) : Prop where
  mode : x.2.mode = .m4
  half : x.2.half = .hi
  calm : x.2.calm
  low : x.1.getLsbD c.enBit = false

theorem inStep_of_seen {s : State} (h : SeenInStep s.cfg (s.port, s.ctl)) : InStep s :=
  ⟨h.mode, h.half, h.calm.1, h.calm.2, h.low⟩

theorem seen_switch {c : Cfg} (hc : c.legal = true) {x : Byte × Ctl} (hE : x.1.getLsbD c.enBit = false)
    (hk : x.2.calm) (hm : x.2.mode = .m8) : SeenInStep c (seen c (nibbleTrace c 0x2#4 false) x) := by
  obtain ⟨mode, half, calm⟩ := latch_two (k := x.2.restart false) hm ⟨rfl, Nat.zero_le _⟩
  rw [seen_nibble hc _ _ hE hk]
  exact ⟨mode, half, calm, fmt_enBit hc _ _ false⟩

/-! The five commands. -/

/-- One byte sent to a controller in step: it is delivered to a controller `j` that shows the same, with no time passed and
none owed, and counting its latches changes nothing more (R59). -/
theorem seen_transfer {c : Cfg} (hc : c.legal = true) {x : Byte × Ctl} (hx : SeenInStep c x) (v : Byte) (rs : Bool) :
    ∃ j k, seen c (byteTrace c v rs) x = (fmt c (lowNibble v) rs false, k) ∧ Fresh j x.2 ∧
      SameShown k (deliver rs v j) ∧ k.mode = (deliver rs v j).mode ∧ k.half = (deliver rs v j).half ∧
      k.late = (deliver rs v j).late ∧ k.owed = (deliver rs v j).owed ∧ k.waited = (deliver rs v j).waited := by
  obtain ⟨j, hseen, hshown, jm, jh, jl, jo, jw⟩ := seen_byte hc v rs hx.low hx.calm hx.mode hx.half
  obtain ⟨shown, mode, half, -, late, owed, waited⟩ := count3_fields (lowNibble v) rs (deliver rs v j)
  exact ⟨j, _, hseen, ⟨hshown, jm, jh, jl, jo, jw⟩, shown, mode, half, late, owed, waited⟩

/-- The byte of a setting command other than HOME sets its registers, leaves every cell, and owes no time. -/
theorem seen_setting {i : Instr} {f : Regs → Regs} (h : Setting i f) (hhome : i ≠ .home) {v : Byte}
    (hcode : encodeCode i = some (false, v)) {c : Cfg} (hc : c.legal = true) {x : Byte × Ctl} (hx : SeenInStep c x) :
    SeenInStep c (seen c (byteTrace c v false) x) ∧ (seen c (byteTrace c v false) x).2.regs = f x.2.regs ∧
      ∀ a, (seen c (byteTrace c v false) x).2.cell a = x.2.cell a := by
  obtain ⟨j, k, hseen, fresh, shown, mode, half, late, owed, waited⟩ := seen_transfer hc hx v false
  rw [h.delivered hcode, if_neg hhome] at shown mode half late owed waited
  rw [hseen]
  refine ⟨⟨mode.trans fresh.mode, half.trans fresh.half, ⟨late.trans fresh.late, ?_⟩, fmt_enBit hc _ _ false⟩,
    shown.regs.trans (congrArg f fresh.shown.regs), fun a => (shown.cell a).trans (fresh.shown.cell a)⟩
  exact (owed.trans fresh.owed).trans_le (Nat.zero_le _)

/-- What CLEAR emits (42_command_layer.md R101). -/
def clearTrace (c : Cfg) : List Event := byteTrace c codeClear false ++ [Event.wait .tCLR]

/-- The byte of CLEAR and its wait empty the display and home the cursor; the wait covers the time owed. -/
theorem seen_clear {c : Cfg} (hc : c.legal = true) {x : Byte × Ctl} (hx : SeenInStep c x) :
    SeenInStep c (seen c (clearTrace c) x) ∧ (seen c (clearTrace c) x).2.regs = clearRegs x.2.regs ∧
      ∀ a, (seen c (clearTrace c) x).2.cell a = 0x20#8 := by
  obtain ⟨j, k, hseen, fresh, shown, mode, half, late, owed, waited⟩ := seen_transfer hc hx codeClear false
  have hclear : seen c (clearTrace c) x = (fmt c (lowNibble codeClear) false false, k.passed .tCLR) := by
    rw [clearTrace, seen_append, hseen]
    rfl
  rw [hclear]
  have hw : k.waited = 0 := waited.trans fresh.waited
  obtain ⟨pshown, phalf, plate, powed, pwaited⟩ := shown_passed .tCLR k
  have pmode : (k.passed .tCLR).mode = k.mode := passed_mode (by rw [hw]; decide)
  refine ⟨⟨pmode.trans (mode.trans fresh.mode), phalf.trans (half.trans fresh.half),
    ⟨plate.trans (late.trans fresh.late), ?_⟩, fmt_enBit hc _ _ false⟩,
    (pshown.regs.trans shown.regs).trans (congrArg clearRegs fresh.shown.regs),
    cell_of_blank (pshown.ddram.trans shown.ddram)⟩
  exact (powed.trans owed).trans_le ((Nat.le_add_left _ _).trans_eq pwaited.symm)

/-! The whole of INIT. -/

/-- Steps 1 to 3 of INIT: the wait after power-up, three raw nibbles 0x3 with their waits, one 0x2 (43_init_sequencer.md
R128). -/
def initRaw (c : Cfg) : List Event :=
  [Event.wait .tPWR] ++ (rawThree c ++ rawThree c ++ rawThree c) ++ nibbleTrace c 0x2#4 false

/-- Steps 4 to 8 of INIT: five commands (R128). -/
def initCommands (c : Cfg) : List Event :=
  byteTrace c (codeFuncset 0 1 0) false ++ byteTrace c (codeDispctl 0 0 0) false ++ clearTrace c ++
    byteTrace c (codeEntry 1 0) false ++ byteTrace c (codeDispctl 1 0 0) false

theorem initTrace_eq (c : Cfg) : initTrace c = initRaw c ++ initCommands c := by
  have codes : codeFuncset 0 1 0 = 0x28#8 ∧ codeDispctl 0 0 0 = 0x08#8 ∧ codeClear = 0x01#8 ∧
      codeEntry 1 0 = 0x06#8 ∧ codeDispctl 1 0 0 = 0x0C#8 := by decide
  simp only [initTrace, initRaw, initCommands, rawThree, clearTrace, codes, List.append_assoc]

/-- Steps 1 to 3 of INIT bring a controller in an unknown mode into step. -/
theorem seen_init_raw {c : Cfg} (hc : c.legal = true) {p : Byte} {k : Ctl} (hm : k.mode = .unknown)
    (hpend : k.pend3 = false) (hl : k.late = false) (ho : k.owed ≤ 50000) :
    SeenInStep c (seen c (initRaw c) (p, k)) := by
  have hpower : seen c [.wait .tPWR] (p, k) = (p, { k with waited := k.waited + 50000 }) :=
    congrArg (Prod.mk p) (passed_idle .tPWR hpend)
  have hcalm : ({ k with waited := k.waited + 50000 } : Ctl).calm := ⟨hl, ho.trans (Nat.le_add_left _ _)⟩
  obtain ⟨hE, calm, m8⟩ :=
    seen_three_raw hc (p := p) hcalm (Nat.le_trans (by decide) (Nat.le_add_left 50000 _)) hm rfl
  rw [initRaw, seen_append, seen_append, hpower]
  exact seen_switch hc hE calm m8

/-- Steps 4 to 8 of INIT at a controller in step. -/
theorem seen_init_commands {c : Cfg} (hc : c.legal = true) {x y : Byte × Ctl} (hx : SeenInStep c x)
    (hy : seen c (initCommands c) x = y) : SeenInStep c y ∧ (∀ a, y.2.cell a = 0x20#8) ∧ y.2.regs =
      { ac := 0#7, disp := true, cur := false, blink := false, id := true, sh := false, fn := 0x28#8 } := by
  simp only [initCommands, seen_append] at hy
  obtain ⟨hx1, regs1, -⟩ :=
    seen_setting (.funcset (lines := 1) (font := 0) (by decide) (by decide)) (by simp) rfl hc hx
  obtain ⟨hx2, regs2, -⟩ := seen_setting
    (.dispctl (on := 0) (cursor := 0) (blink := 0) (by decide) (by decide) (by decide)) (by simp) rfl hc hx1
  obtain ⟨hx3, regs3, cells3⟩ := seen_clear hc hx2
  obtain ⟨hx4, regs4, cells4⟩ :=
    seen_setting (.entry (dir := 1) (shift := 0) (by decide) (by decide)) (by simp) rfl hc hx3
  obtain ⟨hx5, regs5, cells5⟩ := seen_setting
    (.dispctl (on := 1) (cursor := 0) (blink := 0) (by decide) (by decide) (by decide)) (by simp) rfl hc hx4
  subst hy
  refine ⟨hx5, fun a => by rw [cells5, cells4, cells3], ?_⟩
  rw [regs5, regs4, regs3, regs2, regs1]
  rfl

/-- Settles O54: the raw nibbles bring the controller into step, and the five commands write everything it shows. -/
theorem initBringsTheControllerIntoStep : Obligations.InitBringsTheControllerIntoStep := by
  intro s hidle hf hm _ hpend hl ho
  have hc := hidle.2.2
  obtain ⟨t, ht, -, hhost, -, -, -, -, hseen⟩ := runOperation_ok (i := .init) (body := initBody) rfl hidle hf
  rw [microsTrace_init, initTrace_eq, seen_append] at hseen
  obtain ⟨hstep, hcells, hregs⟩ := seen_init_commands hc (seen_init_raw hc hm hpend hl ho) hseen.symm
  exact ⟨t, ht, inStep_of_seen (hhost.1 ▸ hstep), hcells, hregs⟩

end Sys2Proof.Machine
end

section
/-! PROOFS. Admission and refusal at the port (30_encoding.md R65, R66), and an operation run primitive by primitive (R64). -/

namespace Sys2Proof.Machine

/-- Admission names the operands as the reason exactly when one is out of range (R65). -/
theorem refusal?_eq_operandOutOfRange_iff (i : Instr) (s : State) :
    refusal? i s = some .operandOutOfRange ↔ i.wellFormed = false := by
  unfold refusal?
  split
  · next hw => simp [hw]
  · next hw =>
    split
    · simp [hw]
    · split <;> simp [hw]

theorem runOperation_operandOutOfRange_iff (i : Instr) (body : List Micro) (s : State) :
    runOperation i body s = .refused .operandOutOfRange ↔ i.wellFormed = false := by
  rw [← refusal?_eq_operandOutOfRange_iff i s.drain, runOperation]
  cases refusal? i s.drain <;> simp

theorem runPrimitive_operandOutOfRange_iff (i : Instr) (p : Prim) (s : State) :
    runPrimitive i p s = .refused .operandOutOfRange ↔ i.wellFormed = false := by
  unfold runPrimitive
  split
  · next hw => simp [hw]
  · next hw => split <;> simp [hw]

/-- On the port and off it, an instruction is refused for its operands exactly when it is not well formed. -/
theorem exec_operandOutOfRange_iff (i : Instr) (s : State) :
    exec i s = .refused .operandOutOfRange ↔ i.wellFormed = false := by
  cases hp : i.onPort with
  | true =>
    obtain ⟨body, hexec, -⟩ := exec_onPort i hp
    rw [hexec, runOperation_operandOutOfRange_iff]
  | false =>
    obtain ⟨p, hexec⟩ := exec_offPort i hp
    rw [hexec, runPrimitive_operandOutOfRange_iff]

/-- Settles O23: the refusal says that the instruction is not well formed, and each form's check is its operand ranges. -/
theorem operandOutOfRangeRefused : Obligations.OperandOutOfRangeRefused := by
  intro i s
  rw [exec_operandOutOfRange_iff, ← Bool.not_eq_true, not_iff_not]
  cases i <;> simp [Instr.wellFormed, and_assoc]

/-- An operation offered to an idle block in a lifecycle state that does not admit it is refused for that state (R66). -/
theorem runOperation_notAdmitted {i : Instr} {s : State} (body : List Micro) (hi : i.wellFormed = true)
    (hc : s.cfg.legal = true) (ho : s.op = none) (hl : s.life ≠ admittedIn i) :
    runOperation i body s = .refused (.notAdmitted s.life) := by
  simp [runOperation, drain_of_idle ho, refusal?, hi, hc, hl]

/-- Settles O22: the two outcomes of admission in an idle block. -/
theorem operationAdmittedOnlyInItsState : Obligations.OperationAdmittedOnlyInItsState := by
  intro i s hp hi hc ho
  obtain ⟨body, hexec, -⟩ := exec_onPort i hp
  rw [hexec]
  exact ⟨fun hl => ⟨_, runOperation_admitted hi ⟨ho, hl, hc⟩⟩, runOperation_notAdmitted body hi hc ho⟩

/-- Settles O37: the steps of the running operation lead where its body does. -/
theorem stepsOfPrimitivesAreTheOperation : Obligations.StepsOfPrimitivesAreTheOperation :=
  fun _ _ ho hf hc => run_eq_drain ho hf hc

end Sys2Proof.Machine
end

section
/-! PROOFS. The codes (30_encoding.md): the bit that names a command (R74), the codes that no operation produces (R75), and
that each decoder gives back what was encoded: a code (R81), a word of the opcode table (R80), the sends of a command (R73). -/

namespace Sys2Proof.Machine

/-! The classes of the codes. -/

theorem codeSetddram_range (a : Addr) : 2 ^ 7 ≤ (codeSetddram a).toNat ∧ (codeSetddram a).toNat < 2 ^ 8 := by
  have hcode : codeSetddram a = BitVec.ofNat 8 (128 + a.toNat) := by
    simpa using codeSetddram_sum a.toNat a.isLt
  have ha := a.isLt
  rw [hcode, BitVec.toNat_ofNat]
  omega

/-- Settles O44: every code is the highest bit of its class plus fields below that bit. -/
theorem highestBitNamesTheCommand : Obligations.HighestBitNamesTheCommand := by
  intro i c hw he
  cases i <;> simp only [encodeCode, Option.some.injEq, Prod.mk.injEq, true_and, reduceCtorEq, false_and] at he <;>
    subst he <;> simp only [Instr.wellFormed, Bool.and_eq_true, decide_eq_true_eq] at hw
  case clear => decide
  case home => decide
  case entry dir shift =>
    obtain ⟨hd, hs⟩ := hw
    simp only [codeEntry_sum dir hd shift hs, BitVec.toNat_ofNat]
    omega
  case dispctl on cursor blink =>
    obtain ⟨⟨ho, hc⟩, hb⟩ := hw
    simp only [codeDispctl_sum on ho cursor hc blink hb, BitVec.toNat_ofNat]
    omega
  case funcset width lines font =>
    obtain ⟨⟨hd, hl⟩, hf⟩ := hw
    simp only [codeFuncset_sum width hd lines hl font hf, BitVec.toNat_ofNat]
    omega
  case setddram addr => exact codeSetddram_range _
  case setcursor row col => exact codeSetddram_range _

/-- The decoder refuses exactly the codes that meet none of its patterns (R81). -/
theorem decodeCode_eq_error_iff (c : Byte) : decodeCode false c = .error (.notGenerated c) ↔
    c.getLsbD 7 = false ∧ c &&& 0xE3#8 ≠ 0x20#8 ∧ c &&& 0xF8#8 ≠ 0x08#8 ∧ c &&& 0xFC#8 ≠ 0x04#8 ∧
      c ≠ 0x02#8 ∧ c ≠ 0x01#8 := by
  unfold decodeCode
  repeat' split
  all_goals simp_all

/-- The codes that meet each pattern of the decoder, as numbers (R68, R81). -/
theorem code_patterns (c : Byte) : (c.getLsbD 7 = false ↔ c.toNat < 0x80) ∧
    (c &&& 0xE3#8 = 0x20#8 ↔ 0x20 ≤ c.toNat ∧ c.toNat ≤ 0x3F ∧ c.toNat % 4 = 0) ∧
    (c &&& 0xF8#8 = 0x08#8 ↔ 0x08 ≤ c.toNat ∧ c.toNat ≤ 0x0F) ∧
    (c &&& 0xFC#8 = 0x04#8 ↔ 0x04 ≤ c.toNat ∧ c.toNat ≤ 0x07) := by
  revert c; decide

/-- Settles O43: the codes left over by the decoder's patterns. -/
theorem notGeneratedCodesAreRefused : Obligations.NotGeneratedCodesAreRefused := by
  intro c
  obtain ⟨hset, hfuncset, hdispctl, hentry⟩ := code_patterns c
  rw [decodeCode_eq_error_iff, hset, Ne, hfuncset, Ne, hdispctl, Ne, hentry]
  simp only [← BitVec.toNat_inj, BitVec.toNat_ofNat, ne_eq]
  omega

/-! One code. -/

theorem decodeCode_entry : ∀ dir < 2, ∀ shift < 2,
    decodeCode false (codeEntry dir shift) = .ok (.entry dir shift) := by decide

theorem decodeCode_dispctl : ∀ on < 2, ∀ cursor < 2, ∀ blink < 2,
    decodeCode false (codeDispctl on cursor blink) = .ok (.dispctl on cursor blink) := by decide

theorem decodeCode_funcset : ∀ width < 2, ∀ lines < 2, ∀ font < 2,
    decodeCode false (codeFuncset width lines font) = .ok (.funcset width lines font) := by decide

theorem decodeCode_setddram (a : Addr) : decodeCode false (codeSetddram a) = .ok (.setddram a.toNat) := by
  revert a; decide

/-- The code of an operation decodes to the form that a decoder recovers (R77, R81). -/
theorem decodeCode_encodeCode {i : Instr} {rs : Bool} {c : Byte} (hw : i.wellFormed = true)
    (he : encodeCode i = some (rs, c)) : decodeCode rs c = .ok (recovered i) := by
  cases i <;> simp only [encodeCode, Option.some.injEq, Prod.mk.injEq, reduceCtorEq] at he <;>
    obtain ⟨rfl, rfl⟩ := he <;> simp only [Instr.wellFormed, Bool.and_eq_true, decide_eq_true_eq] at hw
  case clear => rfl
  case home => rfl
  case entry dir shift =>
    obtain ⟨hd, hs⟩ := hw
    exact decodeCode_entry dir hd shift hs
  case dispctl on cursor blink =>
    obtain ⟨⟨ho, hc⟩, hb⟩ := hw
    exact decodeCode_dispctl on ho cursor hc blink hb
  case funcset width lines font =>
    obtain ⟨⟨hd, hl⟩, hf⟩ := hw
    exact decodeCode_funcset width hd lines hl font hf
  case setddram addr => simp [decodeCode_setddram, recovered, Nat.mod_eq_of_lt hw]
  case write ch => simp [decodeCode, recovered, Nat.mod_eq_of_lt hw]
  case setcursor row col => simp [codeSetcursor, decodeCode_setddram, recovered, cursorAddress_sum]

/-! One word of the opcode table. -/

/-- A 9-bit word is its register select in bit 8 over its code (R80). -/
theorem decodeWord9_append (rs : Bool) (c : Byte) : decodeWord9 (BitVec.ofBool rs ++ c) = decodeCode rs c := by
  have hrs : (BitVec.ofBool rs ++ c).getLsbD 8 = rs := BitVec.getLsbD_append.trans (by simp)
  have hcode : (BitVec.ofBool rs ++ c).setWidth 8 = c := BitVec.setWidth_append.trans (by simp)
  exact congrArg₂ decodeCode hrs hcode

/-- The 9-bit word `rs << 8 | code` decodes as its code does (R80). -/
theorem decodeTableWord_code (rs : Bool) (c : Byte) :
    decodeTableWord 16 (rs.toNat <<< 8 ||| c.toNat) = (decodeCode rs c).toOption := by
  have hword : (BitVec.ofBool rs ++ c).toNat = rs.toNat <<< 8 ||| c.toNat :=
    (BitVec.toNat_append _ _).trans (by rw [BitVec.toNat_ofBool])
  have hlt : (BitVec.ofBool rs ++ c).toNat < 512 := (BitVec.ofBool rs ++ c).isLt
  have hround : BitVec.ofNat 9 (BitVec.ofBool rs ++ c).toNat = BitVec.ofBool rs ++ c := BitVec.ofNat_toNat _ _
  rw [← hword, decodeTableWord, decodeTable, if_neg (by decide), if_pos rfl, if_pos hlt, hround,
    decodeWord9_append]

/-- An operation with a code has the 9-bit word `rs << 8 | code` (R80). -/
theorem encodeTableWord_of_encodeCode {i : Instr} {rs : Bool} {c : Byte} (he : encodeCode i = some (rs, c)) :
    encodeTableWord i = some (16, rs.toNat <<< 8 ||| c.toNat) := by
  cases i with
  | nibble => simp [encodeCode] at he
  | _ => simp [encodeTableWord, he]

/-- The 5-bit word `rs << 4 | n` decodes to its NIBBLE (R80). -/
theorem decodeTableWord_nibble : ∀ n < 16, ∀ rs < 2,
    decodeTableWord 8 (rs <<< 4 ||| n) = some (.nibble n rs) := by decide

/-- Settles O40: a command has the word of its code, a NIBBLE the word of its own row. -/
theorem decodeOfEncodeIsTheInstruction : Obligations.DecodeOfEncodeIsTheInstruction := by
  rintro i hw (hi | ⟨n, rs, rfl⟩)
  · obtain ⟨rs, c, -, -, he, -⟩ := exec_command i hi
    refine ⟨16, _, encodeTableWord_of_encodeCode he, ?_⟩
    rw [decodeTableWord_code, decodeCode_encodeCode hw he]
    rfl
  · obtain ⟨hn, hrs⟩ : n < 16 ∧ rs < 2 := by simpa [Instr.wellFormed] using hw
    exact ⟨8, rs <<< 4 ||| n, rfl, decodeTableWord_nibble n hn rs hrs⟩

/-- Settles O45, word by word. -/
theorem writtenWordsDecode : Obligations.WrittenWordsDecode := by
  refine ⟨?_, ?_, ?_, ?_, ?_, ?_, ?_, ?_⟩ <;> decide

/-! The sends of a command. -/

/-- The three sends of a nibble are read as that nibble, before those that follow (R73). -/
theorem decodeNibbles_encodeNibble {c : Cfg} (hc : c.legal = true) (n : Nibble) (rs : Bool) {bytes : List Byte}
    {gs : List (Nibble × Bool)} (h : decodeNibbles c bytes = .ok gs) :
    decodeNibbles c (encodeNibble c n rs ++ bytes) = .ok ((n, rs) :: gs) := by
  simp [encodeNibble, decodeNibbles, decodeTriple_encode hc, h]

/-- The six sends of a byte are read as its two halves, before those that follow (R73). -/
theorem decodeNibbles_encodeByte {c : Cfg} (hc : c.legal = true) (v : Byte) (rs : Bool) {bytes : List Byte}
    {gs : List (Nibble × Bool)} (h : decodeNibbles c bytes = .ok gs) :
    decodeNibbles c (encodeByte c v rs ++ bytes) = .ok ((highNibble v, rs) :: (lowNibble v, rs) :: gs) := by
  rw [encodeByte, List.append_assoc]
  exact decodeNibbles_encodeNibble hc _ rs (decodeNibbles_encodeNibble hc _ rs h)

/-- The two halves of a byte are paired into it, before those that follow (20_memory.md R59). -/
theorem pairNibbles_halves (v : Byte) (rs : Bool) {gs : List (Nibble × Bool)} {bs : List (Bool × Byte)}
    (h : pairNibbles gs = .ok bs) :
    pairNibbles ((highNibble v, rs) :: (lowNibble v, rs) :: gs) = .ok ((rs, v) :: bs) := by
  simp [pairNibbles, h, joinNibbles_halves]

/-- The sends of one byte decode to its command alone (R73, R81). -/
theorem decodeSends_encodeByte {c : Cfg} (hc : c.legal = true) {v : Byte} {rs : Bool} {i : Instr}
    (h : decodeCode rs v = .ok i) : decodeSends c (encodeByte c v rs) = .ok [i] := by
  have hn : decodeNibbles c (encodeByte c v rs) = .ok [(highNibble v, rs), (lowNibble v, rs)] := by
    simpa using decodeNibbles_encodeByte hc v rs (bytes := []) rfl
  simp [decodeSends, hn, pairNibbles_halves v rs (gs := []) rfl, decodeCodes, h]

theorem bytesOf_append (a b : List Event) : bytesOf (a ++ b) = bytesOf a ++ bytesOf b := List.filterMap_append

/-- A byte transfer sends the six ExpanderBytes of its byte (R71). -/
theorem bytesOf_byteTrace (c : Cfg) (v : Byte) (rs : Bool) : bytesOf (byteTrace c v rs) = encodeByte c v rs := rfl

/-- Settles O41: the new sends are the six of one byte, whose code decodes to the command. -/
theorem emittedBytesDecodeToTheCommand : Obligations.EmittedBytesDecodeToTheCommand := by
  intro i s hi hw hidle hf
  obtain ⟨rs, v, body, post, he, hexec, hsends, htrace, hpost⟩ := exec_command i hi
  obtain ⟨t, ht, hnew, -⟩ := runCommand_ok hw hi hidle (hsends.symm ▸ hf)
  have hbytes : bytesOf post = [] := by rcases hpost with ⟨rfl, -⟩ | ⟨rfl, -⟩ <;> rfl
  refine ⟨t, (hexec s).trans ht, ?_⟩
  rw [hnew, List.drop_left, htrace, bytesOf_append, hbytes, List.append_nil, bytesOf_byteTrace]
  exact decodeSends_encodeByte hidle.2.2 (decodeCode_encodeCode hw he)

end Sys2Proof.Machine
end

section
/-! PROOFS. The expander output formatter (40_expander_format.md): what its inverse refuses (R90), and the byte it makes as the
sum of its four fields, which never overlap (R84). -/

namespace Sys2Proof.Machine

/-- The inverse of the formatter refuses every byte that the formatter does not make (R90). -/
theorem unfmt_eq_error {c : Cfg} {b : Byte} (h : ∀ n rs en, fmt c n rs en ≠ b) :
    unfmt c b = .error (.notFormatted b) := if_neg (h _ _ _)

/-- Settles O38: no byte of the formatter has the unused bit 1 or another backlight bit. -/
theorem formatterIsInverted : Obligations.FormatterIsInverted := by
  intro c hc
  constructor
  · intro n rs en
    exact ⟨unfmt_fmt hc n rs en, highNibble_fmt hc n rs en, fmt_rsBit hc n rs en, fmt_enBit hc n rs en,
      fmt_blBit hc n rs en⟩
  · intro b j hj h1 h2 h3 hbad
    apply unfmt_eq_error
    rintro n rs en rfl
    rcases hbad with hunused | hbl
    · simp [fmt_unused c n rs en hj h1 h2 h3] at hunused
    · exact hbl (fmt_blBit hc n rs en)

/-! The four fields of an ExpanderByte. -/

theorem toNat_flagAt (b : Bool) {pos : Nat} (h : pos < 8) : (flagAt b pos).toNat = 2 ^ pos * b.toNat := by
  have hlt : 2 ^ pos < 256 := Nat.pow_lt_pow_right (n := 8) (by decide) h
  cases b with
  | false => simp [flagAt]
  | true => simp [flagAt, Nat.shiftLeft_eq, hlt]

theorem toNat_nibbleField (n : Nibble) : (n.setWidth 8 <<< 4).toNat = 16 * n.toNat := by
  simp only [BitVec.toNat_shiftLeft, BitVec.toNat_setWidth, Nat.shiftLeft_eq]
  omega

/-- Flags at two positions do not overlap. -/
theorem flagAt_and_flagAt (a b : Bool) {p q : Nat} (h : p ≠ q) : flagAt a p &&& flagAt b q = 0#8 := by
  apply BitVec.eq_of_getLsbD_eq
  intro i hi
  rw [BitVec.getLsbD_and, getLsbD_flagAt a hi, getLsbD_flagAt b hi]
  by_cases hp : i = p
  · simp [hp, h]
  · simp [hp]

/-- The data nibble does not overlap a flag in the low half. -/
theorem nibbleField_and_flagAt (n : Nibble) (b : Bool) {p : Nat} (h : p < 4) :
    (n.setWidth 8 <<< 4) &&& flagAt b p = 0#8 := by
  apply BitVec.eq_of_getLsbD_eq
  intro i hi
  rw [BitVec.getLsbD_and, getLsbD_flagAt b hi, BitVec.getLsbD_shiftLeft]
  by_cases hp : i = p
  · simp [hp, h]
  · simp [hp]

/-- The OR of bytes that do not overlap is their sum. -/
theorem toNat_or_of_disjoint {x y : Byte} (h : x &&& y = 0#8) : (x ||| y).toNat = x.toNat + y.toNat := by
  rw [← BitVec.add_eq_or_of_and_eq_zero x y h, BitVec.toNat_add_of_and_eq_zero h]

/-- An ExpanderByte is the sum of its fields, with the flags at any three positions of the low half (R84). -/
theorem toNat_fmt {c : Cfg} (n : Nibble) (rs en : Bool) (hrs : c.rsBit < 4) (hen : c.enBit < 4) (hbl : c.blBit < 4)
    (hre : c.rsBit ≠ c.enBit) (hrb : c.rsBit ≠ c.blBit) (heb : c.enBit ≠ c.blBit) : (fmt c n rs en).toNat =
      16 * n.toNat + 2 ^ c.blBit * c.blOn.toNat + 2 ^ c.rsBit * rs.toNat + 2 ^ c.enBit * en.toNat := by
  have hb := nibbleField_and_flagAt n c.blOn hbl
  have hr : (n.setWidth 8 <<< 4 ||| flagAt c.blOn c.blBit) &&& flagAt rs c.rsBit = 0#8 := by
    simp [BitVec.and_or_distrib_right, nibbleField_and_flagAt n rs hrs, flagAt_and_flagAt c.blOn rs hrb.symm]
  have he : (n.setWidth 8 <<< 4 ||| flagAt c.blOn c.blBit ||| flagAt rs c.rsBit) &&& flagAt en c.enBit = 0#8 := by
    simp [BitVec.and_or_distrib_right, nibbleField_and_flagAt n en hen, flagAt_and_flagAt c.blOn en heb.symm,
      flagAt_and_flagAt rs en hre]
  rw [fmt, toNat_or_of_disjoint he, toNat_or_of_disjoint hr, toNat_or_of_disjoint hb, toNat_nibbleField,
    toNat_flagAt _ (by omega), toNat_flagAt _ (by omega), toNat_flagAt _ (by omega)]

/-- Settles O39: the sum of the fields, with the flags at bits 3, 0 and 2. -/
theorem formatterImageAtDefaults : Obligations.FormatterImageAtDefaults := by
  intro c n rs en hrs hen hbl
  rw [toNat_fmt n rs en (by omega) (by omega) (by omega) (by omega) (by omega) (by omega), hrs, hen, hbl]
  omega

end Sys2Proof.Machine
end

section
/-! PROOFS. The protocol encoder (41_protocol_encoder.md): a primitive run through on a fault-free bus (NIBBLE R91, BYTE R95,
WAIT R98), and a NIBBLE that ends at its first failing send (R96). -/

namespace Sys2Proof.Machine

/-! A primitive that runs through. -/

/-- With its operands in range and a legal configuration, a primitive runs, in every lifecycle state (log entry 19). -/
theorem runPrimitive_admitted {i : Instr} {s : State} (p : Prim) (hi : i.wellFormed = true) (hc : s.cfg.legal = true) :
    runPrimitive i p s = .next (runPrim p s).state := by
  simp [runPrimitive, hi, hc]

/-- The state `t` after statements that ran through from `s`: besides the trace, the bus and what is behind it, only the place
of the sequencer has moved. -/
structure RanThrough (acts : List Act) (s t : State) : Prop where
  advance : Advance (actSends acts) (actsTrace s.cfg acts) s t
  rest : t.rest = s.rest
  pc : t.pc = actsPc acts s.pc

theorem runPrimitive_ranThrough {i : Instr} {p : Prim} {s : State} (hi : i.wellFormed = true) (hc : s.cfg.legal = true)
    (hf : FaultFree (actSends (Prim.acts p)) s) :
    ∃ t, runPrimitive i p s = .next t ∧ RanThrough (Prim.acts p) s t := by
  obtain ⟨t, ht, advance, rest, pc⟩ := runActs_ok hf
  exact ⟨t, by rw [runPrimitive_admitted p hi hc, runPrim, ht, Run.state], advance, rest, pc⟩

/-- The fields of the block that a primitive leaves alone when it runs through (R91). -/
theorem RanThrough.frame {acts : List Act} {s t : State} (h : RanThrough acts s t) :
    t.life = s.life ∧ t.op = s.op ∧ t.rest = s.rest ∧ t.status = s.status ∧ t.errKind = s.errKind ∧
      t.errStep = s.errStep ∧ KeepsHostSide s t :=
  ⟨h.advance.life, h.advance.op, h.rest, h.advance.status, h.advance.errKind, h.advance.errStep, h.advance.cfg,
    h.advance.offers⟩

theorem nibble_wellFormed {n rs : Nat} (hn : n < 16) (hrs : rs < 2) : (Instr.nibble n rs).wellFormed = true := by
  simp [Instr.wellFormed, hn, hrs]

theorem byte_wellFormed {v rs : Nat} (hv : v < 256) (hrs : rs < 2) : (Instr.byte v rs).wellFormed = true := by
  simp [Instr.wellFormed, hv, hrs]

/-- Settles O12: the statements of a NIBBLE run through; the last byte sent stays at the port. -/
theorem nibbleMakesOnePulse : Obligations.NibbleMakesOnePulse := by
  intro n rs s hn hrs hc hf
  obtain ⟨t, ht, ran⟩ := runPrimitive_ranThrough (p := .nibble (BitVec.ofNat 4 n) (decide (rs = 1)))
    (nibble_wellFormed hn hrs) hc hf
  exact ⟨t, ht, ran.advance.trace, ran.pc, ran.advance.port, ran.frame⟩

/-! The halves of a byte. -/

theorem highNibble_ofNat (v : Nat) : highNibble (BitVec.ofNat 8 v) = BitVec.ofNat 4 (v / 16) := by
  apply BitVec.eq_of_toNat_eq
  simp only [highNibble, BitVec.extractLsb'_toNat, BitVec.toNat_ofNat, Nat.shiftRight_eq_div_pow]
  omega

theorem lowNibble_ofNat (v : Nat) : lowNibble (BitVec.ofNat 8 v) = BitVec.ofNat 4 (v % 16) := by
  apply BitVec.eq_of_toNat_eq
  simp only [lowNibble, BitVec.extractLsb'_toNat, BitVec.toNat_ofNat, Nat.shiftRight_zero]
  omega

/-- The trace of a byte as those of its quotient and its remainder by 16 (20_memory.md R49). -/
theorem byteTrace_ofNat (c : Cfg) (v : Nat) (rs : Bool) : byteTrace c (BitVec.ofNat 8 v) rs =
    nibbleTrace c (BitVec.ofNat 4 (v / 16)) rs ++ nibbleTrace c (BitVec.ofNat 4 (v % 16)) rs := by
  rw [← highNibble_ofNat, ← lowNibble_ofNat]
  rfl

/-- Settles O13: the statements of a BYTE run through, those of its high nibble first. -/
theorem byteSendsHighNibbleFirst : Obligations.ByteSendsHighNibbleFirst := by
  intro v rs s hv hrs hc hf
  obtain ⟨t, ht, ran⟩ := runPrimitive_ranThrough (p := .byte (BitVec.ofNat 8 v) (decide (rs = 1)))
    (byte_wellFormed hv hrs) hc hf
  exact ⟨t, ht, byteTrace_ofNat s.cfg v (decide (rs = 1)) ▸ ran.advance.trace, ran.pc, ran.frame⟩

/-- Settles O14: a wait emits its event and lets its lower bound pass at the observer. -/
theorem waitOnlyLetsTimePass : Obligations.WaitOnlyLetsTimePass := by
  intro w s hc
  obtain ⟨shown, -, -, -, waited⟩ := shown_passed w s.ctl
  exact ⟨s.waits w, exec_prim (.wait w) hc, rfl, waited, shown.regs, shown.cell⟩

/-! A primitive that ends at its first failing send. -/

theorem raise_trace (kind : BusKind) (s : State) : (s.raise kind).trace = s.trace := by
  unfold State.raise; split <;> rfl

theorem raise_errKind (kind : BusKind) (s : State) : (s.raise kind).errKind = some kind := by
  unfold State.raise; split <;> rfl

/-- The status of an error is that of the operation in progress (60_exceptions.md R136, R139). -/
theorem raise_status (kind : BusKind) (s : State) :
    (s.raise kind).status = if s.op = some .init then .initError else .busError := by
  unfold State.raise; split <;> rfl

/-- What a primitive leaves whose send number `k` is the first that fails: the trace cut there, and the error. -/
structure EndedAt (k : Nat) (kind : BusKind) (acts : List Act) (s t : State) : Prop where
  trace : t.trace = s.trace ++ cutAt kind k (actsTrace s.cfg acts)
  errKind : t.errKind = some kind
  op : t.op = none
  status : t.status = if s.op = some .init then .initError else .busError

theorem runPrimitive_endedAt {i : Instr} {p : Prim} {s : State} {k : Nat} {kind : BusKind} (hi : i.wellFormed = true)
    (hc : s.cfg.legal = true) (hk : k < actSends (Prim.acts p)) (hf : FailsFirstAt k kind s) :
    ∃ t, runPrimitive i p s = .next t ∧ EndedAt k kind (Prim.acts p) s t := by
  obtain ⟨u, n, rs, en, tr, hrun, advance, hreply, hcut, -, -⟩ := runActs_fails hf hk
  refine ⟨(u.sent (fmt s.cfg n rs en)).raise kind, by rw [runPrimitive_admitted p hi hc, runPrim, hrun, Run.state],
    ?_, raise_errKind kind _, (raise_idle kind _).1, ?_⟩
  · rw [raise_trace, State.sent_trace, advance.trace, hreply, advance.cfg, List.append_assoc, hcut]
  · rw [raise_status, State.sent_op, advance.op]

/-- A trace cut at its send number `k` has `k + 1` sends: those before it and the one that fails (R96). -/
theorem sendCount_cutAt (kind : BusKind) {k : Nat} {tr : List Event} (h : k < sendCount tr) :
    sendCount (cutAt kind k tr) = k + 1 := by
  induction tr generalizing k with
  | nil => simp at h
  | cons e tr ih =>
    cases e with
    | wait t => simpa [cutAt] using ih (by simpa using h)
    | send d b r =>
      cases k with
      | zero => rfl
      | succ k => simpa [cutAt] using ih (by simpa using h)

/-- A nibble has one T_EP wait before each of its sends but the first (R91, R96). -/
theorem waitCount_cutAt_nibbleTrace (kind : BusKind) (c : Cfg) (n : Nibble) (rs : Bool) {k : Nat} (hk : k < 3) :
    waitCount .tEP (cutAt kind k (nibbleTrace c n rs)) = k := by
  interval_cases k <;> simp [nibbleTrace, sendOk, cutAt]

/-- Settles O18: the new events are the trace of the nibble cut at the failing send. -/
theorem failedNibbleCountsItsEvents : Obligations.FailedNibbleCountsItsEvents := by
  intro n rs k kind s hn hrs hc hk hf
  obtain ⟨t, ht, ended⟩ := runPrimitive_endedAt (p := .nibble (BitVec.ofNat 4 n) (decide (rs = 1)))
    (nibble_wellFormed hn hrs) hc hk hf
  exact ⟨t, _, ht, ended.trace, sendCount_cutAt kind hk, waitCount_cutAt_nibbleTrace kind s.cfg _ _ hk, ended.errKind,
    ended.op, ended.status⟩

end Sys2Proof.Machine
end

section
/-! PROOFS. The command layer (42_command_layer.md): every command is one byte transfer (R100) with at most the T_CLR wait after
it (R105), or ends at its first failing send (R113); and what FUNCSET with width 1 (R109) and a repeated CLEAR (R107) leave at
the controller. -/

namespace Sys2Proof.Machine

/-! A command that runs through. -/

/-- The wait after the byte transfer of a command (R105). -/
def postDelay (i : Instr) : List Event := if i = .clear ∨ i = .home then [.wait .tCLR] else []

/-- Only a command form has a code (30_encoding.md R68). -/
theorem isCommand_of_encodeCode {i : Instr} {rs : Bool} {v : Byte} (hcode : encodeCode i = some (rs, v)) :
    i.isCommand = true := by
  cases i with
  | init | detach | nibble | byte | wait => cases hcode
  | clear | home | entry | dispctl | funcset | setddram | write | setcursor => rfl

/-- WRITE is the one command on the data path (R100). -/
theorem dataPath_iff_write {i : Instr} {rs : Bool} {v : Byte} (hcode : encodeCode i = some (rs, v)) :
    rs = true ↔ ∃ ch, i = .write ch := by
  cases i with
  | init | detach | nibble | byte | wait => cases hcode
  | write ch =>
    cases hcode
    exact iff_of_true rfl ⟨ch, rfl⟩
  | clear | home | entry | dispctl | funcset | setddram | setcursor =>
    cases hcode
    exact iff_of_false Bool.false_ne_true nofun

/-- A command with a code is an operation whose body is the transfer of that code, with its post-delay (R100, R105). -/
theorem exec_of_encodeCode {i : Instr} {rs : Bool} {v : Byte} (hcode : encodeCode i = some (rs, v)) :
    ∃ body, (∀ s, exec i s = runOperation i body s) ∧ microsSends body = 6 ∧
      ∀ c, microsTrace c body = byteTrace c v rs ++ postDelay i := by
  obtain ⟨rs', v', body, post, hcode', hexec, hsends, htrace, hpost⟩ := exec_command i (isCommand_of_encodeCode hcode)
  cases hcode.symm.trans hcode'
  refine ⟨body, hexec, hsends, fun c => ?_⟩
  rcases hpost with ⟨rfl, hclear, hhome⟩ | ⟨rfl, hwaits⟩
  · rw [htrace, postDelay, if_neg (not_or.2 ⟨hclear, hhome⟩)]
  · rw [htrace, postDelay, if_pos hwaits]

/-- The state `t` after command `i`, sent as byte `v`, on a fault-free bus. -/
structure CommandSent (i : Instr) (rs : Bool) (v : Byte) (s t : State) : Prop where
  trace : t.trace = s.trace ++ (byteTrace s.cfg v rs ++ postDelay i)
  ended : EndedOk .ready s t
  host : KeepsHostSide s t
  port : t.port = fmt s.cfg (lowNibble v) rs false

/-- The post-delay leaves the port as the last send of the byte left it. -/
theorem seen_postDelay_port (c : Cfg) (i : Instr) (x : Byte × Ctl) : (seen c (postDelay i) x).1 = x.1 := by
  unfold postDelay
  split <;> rfl

/-- A well-formed command on a fault-free bus sends its code and ends OK (R100, R102). -/
theorem exec_command_ok {i : Instr} {rs : Bool} {v : Byte} {s : State} (hcode : encodeCode i = some (rs, v))
    (hw : i.wellFormed = true) (hidle : IdleIn .ready s) (hf : FaultFree 6 s) :
    ∃ t, exec i s = .next t ∧ CommandSent i rs v s t := by
  obtain ⟨body, hexec, hsends, hbody⟩ := exec_of_encodeCode hcode
  obtain ⟨t, ht, htrace, hended, hhost, hseen⟩ :=
    runCommand_ok hw (isCommand_of_encodeCode hcode) hidle (hsends.symm ▸ hf)
  rw [hbody] at htrace hseen
  refine ⟨t, (hexec s).trans ht, htrace, hended, hhost, (congrArg Prod.fst hseen).trans ?_⟩
  rw [seen_append, seen_postDelay_port, seen_byte_port]

/-- A command without post-delay adds its byte transfer to the trace and nothing more (R105). -/
theorem exec_command_without_delay {i : Instr} {rs : Bool} {v : Byte} {s : State} (hcode : encodeCode i = some (rs, v))
    (hdelay : postDelay i = []) (hw : i.wellFormed = true) (hidle : IdleIn .ready s) (hf : FaultFree 6 s) :
    ∃ t, exec i s = .next t ∧ t.trace = s.trace ++ byteTrace s.cfg v rs ∧ EndedOk .ready s t ∧ KeepsHostSide s t := by
  obtain ⟨t, ht, sent⟩ := exec_command_ok hcode hw hidle hf
  exact ⟨t, ht, by simpa [hdelay] using sent.trace, sent.ended, sent.host⟩

/-! The commands one by one. -/

/-- Settles O1: CLEAR is the transfer of 0x01 with the post-delay. -/
theorem clearSendsCodeThenWaits : Obligations.ClearSendsCodeThenWaits := by
  intro s hidle hf
  obtain ⟨t, ht, sent⟩ := exec_command_ok (i := .clear) rfl rfl hidle hf
  exact ⟨t, ht, sent.trace, sent.ended, sent.host, sent.port⟩

/-- Settles O2: HOME is the transfer of 0x02 with the post-delay. -/
theorem homeSendsCodeThenWaits : Obligations.HomeSendsCodeThenWaits := by
  intro s hidle hf
  obtain ⟨t, ht, sent⟩ := exec_command_ok (i := .home) rfl rfl hidle hf
  exact ⟨t, ht, sent.trace, sent.ended, sent.host, sent.port⟩

/-- Settles O3: the fields of the ENTRY code do not overlap. -/
theorem entrySendsItsCode : Obligations.EntrySendsItsCode := by
  intro dir shift s hd hs hidle hf
  have hcode : encodeCode (.entry dir shift) = some (false, BitVec.ofNat 8 (4 + 2 * dir + shift)) := by
    rw [encodeCode, codeEntry_sum dir hd shift hs]
  exact exec_command_without_delay hcode rfl (by simp [Instr.wellFormed, hd, hs]) hidle hf

/-- Settles O4: the fields of the DISPCTL code do not overlap. -/
theorem dispctlSendsItsCode : Obligations.DispctlSendsItsCode := by
  intro on cursor blink s ho hc hb hidle hf
  have hcode : encodeCode (.dispctl on cursor blink) =
      some (false, BitVec.ofNat 8 (8 + 4 * on + 2 * cursor + blink)) := by
    rw [encodeCode, codeDispctl_sum on ho cursor hc blink hb]
  exact exec_command_without_delay hcode rfl (by simp [Instr.wellFormed, ho, hc, hb]) hidle hf

/-- Settles O5: the fields of the FUNCSET code do not overlap, with width 1 as with width 0. -/
theorem funcsetSendsItsCode : Obligations.FuncsetSendsItsCode := by
  intro width lines font s hw hl hfo hidle hf
  have hcode : encodeCode (.funcset width lines font) =
      some (false, BitVec.ofNat 8 (32 + 16 * width + 8 * lines + 4 * font)) := by
    rw [encodeCode, codeFuncset_sum width hw lines hl font hfo]
  exact exec_command_without_delay hcode rfl (by simp [Instr.wellFormed, hw, hl, hfo]) hidle hf

/-- Settles O6: a 7-bit address does not reach bit 7 of its code. -/
theorem setddramSendsItsCode : Obligations.SetddramSendsItsCode := by
  intro addr s ha hidle hf
  have hcode : encodeCode (.setddram addr) = some (false, BitVec.ofNat 8 (128 + addr)) := by
    rw [encodeCode, codeSetddram_sum addr ha]
  exact exec_command_without_delay hcode rfl (by simp [Instr.wellFormed, ha]) hidle hf

/-- Settles O7: the code of WRITE is its character, on the data path. -/
theorem writeSendsItsCharacter : Obligations.WriteSendsItsCharacter := by
  intro ch s hch hidle hf
  exact exec_command_without_delay (i := .write ch) rfl rfl (by simp [Instr.wellFormed, hch]) hidle hf

/-- Settles O8: the code of SETCURSOR is that of the SETDDRAM of its address. -/
theorem setcursorSendsTheAddress : Obligations.SetcursorSendsTheAddress := by
  intro row col s hr hcol hidle hf
  have hcode : encodeCode (.setcursor row col) =
      some (false, BitVec.ofNat 8 (128 + ((if row = 0 then 0x00 else 0x40) + col) % 128)) := by
    rw [encodeCode, codeSetcursor, cursorAddress_sum, codeSetddram_sum _ (Nat.mod_lt _ (by decide))]
  exact exec_command_without_delay hcode rfl (by simp [Instr.wellFormed, hr, hcol]) hidle hf

/-- Settles O9, by the one transfer every command is. -/
theorem everyCommandIsOneByteTransfer : Obligations.EveryCommandIsOneByteTransfer := by
  intro i s hi hw hidle hf
  obtain ⟨rs, v, -, -, hcode, -⟩ := exec_command i hi
  obtain ⟨t, ht, sent⟩ := exec_command_ok hcode hw hidle hf
  exact ⟨t, rs, v, ht, hcode, dataPath_iff_write hcode, sent.trace, sent.ended, sent.host⟩

/-! A command whose send fails. -/

/-- Outside INIT an error is a BusError (60_exceptions.md R136). -/
theorem raise_eq_raiseBus {s : State} (h : s.op ≠ some .init) (kind : BusKind) : s.raise kind = s.raiseBus kind :=
  if_neg h

/-- Settles O16: the failing send is one of the byte transfer, so the cut falls before the post-delay, and the error is raised
while the command runs. -/
theorem commandEndsAtFirstFailedSend : Obligations.CommandEndsAtFirstFailedSend := by
  intro i rs v k kind s hw hcode hidle hk hfail
  obtain ⟨-, hinit, -⟩ := onPort_of_isCommand (isCommand_of_encodeCode hcode)
  obtain ⟨body, hexec, hsends, hbody⟩ := exec_of_encodeCode hcode
  obtain ⟨u, n, rs', en, tr, hend, ran, hreply, hcut, -⟩ :=
    runOperation_fails hw (by simpa [admittedIn, hinit] using hidle) hfail (hsends.symm ▸ hk)
  rw [raise_eq_raiseBus (by simp [ran.op, hinit]) kind] at hend
  rw [hbody, cutAt_append_left hk] at hcut
  have htrace : (u.sent (fmt s.cfg n rs' en)).trace = s.trace ++ cutAt kind k (byteTrace s.cfg v rs) := by
    simp [← hcut, hreply, ran.trace, ran.cfg]
  have hlife : u.life = .ready := by simpa [hinit, hidle.2.1] using ran.life
  exact ⟨_, (hexec s).trans hend, htrace, rfl, rfl, rfl, rfl, by simpa using hlife, by simpa using ran.errStep,
    by simpa using ran.cfg, by simpa using ran.offers⟩

/-! The commands at the controller. -/

/-- Settles O52: the delivered code has the 8-bit bit, which loses a controller in 4-bit mode. -/
theorem eightBitFuncsetLosesTheController : Obligations.EightBitFuncsetLosesTheController := by
  intro lines font s hl hfo hidle hs hf
  obtain ⟨t, rs, v, j, ht, -, -, hcode, fresh, -, -, -, -, hmode, -⟩ :=
    command_ctl (i := .funcset 1 lines font) rfl (by simp [Instr.wellFormed, hl, hfo]) hidle hs hf
  cases hcode
  have lost : deliver false (codeFuncset 1 lines font) j = j.lose := deliver_funcset1 lines font hl hfo j fresh.mode
  exact ⟨t, ht, hmode.trans (congrArg Ctl.mode lost)⟩

/-- The bus stays fault-free for the sends that are left after `m` of them. -/
theorem FaultFree.after_answers {m n : Nat} {s t : State} (h : FaultFree (m + n) s) (ha : t.answers = s.answers.drop m)
    (hs : t.sends = s.sends + m) : FaultFree n t := by
  intro j hj
  have hturn : t.turnAt j = s.turnAt (m + j) := by
    simp only [State.turnAt, ha, hs, List.getElem?_drop, Nat.add_assoc]
  exact hturn ▸ h (m + j) (Nat.add_lt_add_left hj m)

/-- After a command that ended OK the block is idle in READY again. -/
theorem idleIn_of_endedOk {s t : State} (hidle : IdleIn .ready s) (hended : EndedOk .ready s t)
    (hhost : KeepsHostSide s t) : IdleIn .ready t := by
  obtain ⟨hlife, -, hop, -⟩ := hended
  obtain ⟨-, -, hlegal⟩ := hidle
  exact ⟨hop, hlife, hhost.1 ▸ hlegal⟩

/-- The state `t` after a CLEAR, in which another command can run, and what the CLEAR left at the port and the controller. -/
structure Cleared (s t : State) : Prop where
  idle : IdleIn .ready t
  inStep : InStep t
  cfg : t.cfg = s.cfg
  regs : t.ctl.regs = clearRegs s.ctl.regs
  cell : ∀ a, t.ctl.cell a = 0x20#8
  port : t.port = fmt s.cfg (lowNibble codeClear) false false

/-- CLEAR at a controller in step, with the answers of the bus that are left after it. -/
theorem exec_clear_inStep {n : Nat} {s : State} (hidle : IdleIn .ready s) (hs : InStep s) (hf : FaultFree (6 + n) s) :
    ∃ t, exec .clear s = .next t ∧ Cleared s t ∧ FaultFree n t := by
  have hf6 : FaultFree 6 s := hf.mono (Nat.le_add_right 6 n)
  obtain ⟨t, rs, v, j, ht, hended, hhost, hcode, fresh, hport, hanswers, hsends, shown, -⟩ :=
    command_ctl (i := .clear) rfl rfl hidle hs hf6
  cases hcode
  have hstep : InStep t := commandsKeepTheControllerInStep .clear s t rfl nofun hidle.1 hs hf6 ht
  have hregs : t.ctl.regs = clearRegs s.ctl.regs := shown.regs.trans (congrArg clearRegs fresh.shown.regs)
  exact ⟨t, ht, ⟨idleIn_of_endedOk hidle hended hhost, hstep, hhost.1, hregs, cell_of_blank shown.ddram, hport⟩,
    hf.after_answers hanswers hsends⟩

/-- Settles O60: what CLEAR leaves is the same from a controller that is cleared already. -/
theorem clearIsIdempotentAtTheController : Obligations.ClearIsIdempotentAtTheController := by
  intro s hidle hs hf
  obtain ⟨t, ht, first, hf6⟩ := exec_clear_inStep (n := 6) hidle hs hf
  obtain ⟨u, hu, second, -⟩ := exec_clear_inStep (n := 0) first.idle first.inStep hf6
  obtain ⟨tmode, thalf, -⟩ := first.inStep
  obtain ⟨umode, uhalf, -⟩ := second.inStep
  have hregs : u.ctl.regs = t.ctl.regs := by
    rw [second.regs, first.regs]
    rfl
  exact ⟨t, u, ht, hu, hregs, fun a => (second.cell a).trans (first.cell a).symm, umode.trans tmode.symm,
    uhalf.trans thalf.symm, by rw [second.port, first.port, first.cfg]⟩

end Sys2Proof.Machine
end

section
/-! PROOFS. The initialization sequencer (43_init_sequencer.md): INIT on a fault-free bus (R118, R128), INIT whose send fails
(R130), and what its sends decode to (R72, R73). -/

namespace Sys2Proof.Machine

/-! INIT that runs through. -/

/-- The state `t` after INIT on a fault-free bus. -/
structure InitSent (s t : State) : Prop where
  trace : t.trace = s.trace ++ initTrace s.cfg
  ended : EndedOk .ready s t
  host : KeepsHostSide s t
  port : t.port = fmt s.cfg 0xC#4 false false

/-- INIT on a fault-free bus emits the step table and ends READY (R118, R129); its last send leaves the low nibble of 0x0C at
the port. -/
theorem exec_init_ok {s : State} (hidle : IdleIn .reset s) (hf : FaultFree 42 s) :
    ∃ t, exec .init s = .next t ∧ InitSent s t := by
  obtain ⟨t, ht, hended, hhost, -, htrace, -, -, hseen⟩ := runOperation_ok (i := .init) (body := initBody) rfl hidle hf
  rw [microsTrace_init] at htrace hseen
  refine ⟨t, ht, htrace, hended, hhost, (congrArg Prod.fst hseen).trans ?_⟩
  rw [initTrace, seen_append, seen_byte_port]
  rfl

/-- The counts of the step table (R128). -/
theorem sendCount_initTrace (c : Cfg) : sendCount (initTrace c) = 42 := rfl

theorem waitCount_initTrace (w : WaitName) (c : Cfg) : waitCount w (initTrace c) =
    match w with
    | .tPWR => 1
    | .tINIT3 => 3
    | .tCLR => 1
    | .tEP => 28 := by
  cases w <;> simp [initTrace]

/-- Settles O11: INIT runs its body through, and the counts are those of the table. -/
theorem initEmitsTheStepTable : Obligations.InitEmitsTheStepTable := by
  intro s hidle hf
  obtain ⟨t, ht, sent⟩ := exec_init_ok hidle hf
  exact ⟨t, ht, sent.trace, sent.ended, sent.host, sent.port, sendCount_initTrace _, waitCount_initTrace .tPWR _,
    waitCount_initTrace .tINIT3 _, waitCount_initTrace .tCLR _, waitCount_initTrace .tEP _⟩

/-! INIT whose send fails. -/

/-- Inside INIT an error is an InitError (60_exceptions.md R139). -/
theorem raise_eq_raiseInit {s : State} (h : s.op = some .init) (kind : BusKind) : s.raise kind = s.raiseInit kind :=
  if_pos h

/-- An idle block in a lifecycle state that admits nothing, FAILED or STOPPED, refuses every well-formed operation of the port
(30_encoding.md R66). -/
theorem exec_refused_of_life {j : Instr} {s : State} (hp : j.onPort = true) (hw : j.wellFormed = true)
    (hc : s.cfg.legal = true) (ho : s.op = none) (hreset : s.life ≠ .reset) (hready : s.life ≠ .ready) :
    exec j s = .refused (.notAdmitted s.life) := by
  refine (operationAdmittedOnlyInItsState j s hp hw hc ho).2 ?_
  split
  · exact hreset
  · exact hready

/-- Settles O17: INIT ends at the failing send with the error raised in the step of that send, and FAILED admits nothing. -/
theorem initFailsInTheStepOfItsSend : Obligations.InitFailsInTheStepOfItsSend := by
  intro k kind s hidle hk hfail
  obtain ⟨u, n, rs, en, tr, hend, ran, hreply, hcut, hstep⟩ :=
    runOperation_fails (i := .init) (body := initBody) rfl hidle hfail hk
  rw [raise_eq_raiseInit (by simp [ran.op]) kind] at hend
  rw [microsTrace_init] at hcut
  rw [microsStep_init k hk] at hstep
  have htrace : (u.sent (fmt s.cfg n rs en)).trace = s.trace ++ cutAt kind k (initTrace s.cfg) := by
    simp [← hcut, hreply, ran.trace, ran.cfg]
  have hcfg : (u.sent (fmt s.cfg n rs en)).cfg = s.cfg := by simpa using ran.cfg
  refine ⟨_, hend, htrace, ?_, rfl, rfl, rfl, rfl, rfl, ⟨hcfg, by simpa using ran.offers⟩, fun j hp hw => ?_⟩
  · simpa [State.raiseInit] using hstep
  · exact exec_refused_of_life hp hw ((congrArg Cfg.legal hcfg).trans hidle.2.2) rfl nofun nofun

/-! What the sends of INIT decode to. -/

/-- The six sends of a byte decode to its command, before the commands of the sends that follow (R73, R81). -/
theorem decodeSends_encodeByte_append {c : Cfg} (hc : c.legal = true) {v : Byte} {rs : Bool} {i : Instr}
    {bytes : List Byte} {is : List Instr} (hcode : decodeCode rs v = .ok i) (h : decodeSends c bytes = .ok is) :
    decodeSends c (encodeByte c v rs ++ bytes) = .ok (i :: is) := by
  unfold decodeSends at h ⊢
  cases hn : decodeNibbles c bytes with
  | error e => simp [hn] at h
  | ok gs =>
    cases hb : pairNibbles gs with
    | error e => simp [hn, hb] at h
    | ok bs =>
      have hcodes : decodeCodes bs = .ok is := by simpa [hn, hb] using h
      simp [decodeNibbles_encodeByte hc v rs hn, pairNibbles_halves v rs hb, decodeCodes, hcode, hcodes]

/-- Steps 2 and 3 send four raw nibbles (R120, R121). -/
theorem decodeNibbles_initRaw {c : Cfg} (hc : c.legal = true) : decodeNibbles c (bytesOf (initRaw c)) =
    .ok [(0x3#4, false), (0x3#4, false), (0x3#4, false), (0x2#4, false)] := by
  have two := decodeNibbles_encodeNibble hc 0x2#4 false (bytes := []) rfl
  have three {bytes gs} := decodeNibbles_encodeNibble hc 0x3#4 false (bytes := bytes) (gs := gs)
  exact three (three (three two))

/-- Steps 4 to 8 send five commands (R122). -/
theorem decodeSends_initCommands {c : Cfg} (hc : c.legal = true) : decodeSends c (bytesOf (initCommands c)) =
    .ok [.funcset 0 1 0, .dispctl 0 0 0, .clear, .entry 1 0, .dispctl 1 0 0] := by
  have command {i rs v bytes is} (hw : i.wellFormed = true) (hcode : encodeCode i = some (rs, v)) :=
    decodeSends_encodeByte_append hc (bytes := bytes) (is := is) (decodeCode_encodeCode hw hcode)
  exact command (i := .funcset 0 1 0) rfl rfl <| command (i := .dispctl 0 0 0) rfl rfl <|
    command (i := .clear) rfl rfl <| command (i := .entry 1 0) rfl rfl <|
    command (i := .dispctl 1 0 0) (bytes := []) rfl rfl rfl

/-- The first twelve sends of INIT are those of its raw nibbles; the others are those of its commands (R72). -/
theorem decodeInitSends_initTrace {c : Cfg} (hc : c.legal = true) : decodeInitSends c (bytesOf (initTrace c)) =
    .ok ([(0x3#4, false), (0x3#4, false), (0x3#4, false), (0x2#4, false)],
      [.funcset 0 1 0, .dispctl 0 0 0, .clear, .entry 1 0, .dispctl 1 0 0]) := by
  have hlen : (bytesOf (initRaw c)).length = 12 := rfl
  rw [initTrace_eq, bytesOf_append, decodeInitSends, List.take_left' hlen, List.drop_left' hlen,
    decodeNibbles_initRaw hc, decodeSends_initCommands hc]

/-- Settles O42: the new events are those of the step table. -/
theorem initBytesDecodeToTheSteps : Obligations.InitBytesDecodeToTheSteps := by
  intro s hidle hf
  obtain ⟨t, ht, sent⟩ := exec_init_ok hidle hf
  refine ⟨t, ht, ?_⟩
  rw [sent.trace, List.drop_left]
  exact decodeInitSends_initTrace hidle.2.2

end Sys2Proof.Machine
end

section
/-! PROOFS. Ends and errors (60_exceptions.md): DETACH (R147), the E level that a failed falling edge leaves (R141), and that
every admitted operation ends with one of its statuses (R132, R138). -/

namespace Sys2Proof.Machine

/-! DETACH. -/

/-- DETACH has an empty body: it makes no send and ends where it starts (R147). -/
theorem exec_detach {s : State} (hidle : IdleIn .ready s) :
    exec .detach s = .next { s with life := .stopped, status := .ok, pc := Pc.zero, rest := [] } := by
  have ended : exec .detach s = .next (s.start .detach []).finish := runOperation_admitted rfl hidle
  have idle_kept : (s.start .detach []).finish =
      { s with life := .stopped, status := .ok, op := s.op, pc := Pc.zero, rest := [] } := by
    rw [hidle.1]
    rfl
  rw [ended, idle_kept]

/-- Settles O10: DETACH only stops the block, and STOPPED admits nothing. -/
theorem detachStopsWithoutASend : Obligations.DetachStopsWithoutASend := by
  intro s hidle
  have hstop := exec_detach hidle
  obtain ⟨ho, -, hc⟩ := hidle
  exact ⟨_, hstop, rfl, rfl, rfl, fun j hp hw => exec_refused_of_life hp hw hc ho nofun nofun⟩

/-! A failed falling edge. -/

theorem raise_port (kind : BusKind) (s : State) : (s.raise kind).port = s.port := by
  unfold State.raise; split <;> rfl

/-- The events of a nibble before its third send fails end with the send of E high and its T_EP wait (R91, R143). -/
theorem before_third_send {c : Cfg} {n : Nibble} {rs : Bool} {kind : BusKind} {tr : List Event} {e : Event}
    (h : tr ++ [e] = cutAt kind 2 (nibbleTrace c n rs)) :
    tr = [sendOk c (fmt c n rs false), .wait .tEP, sendOk c (fmt c n rs true), .wait .tEP] := by
  have hcut : cutAt kind 2 (nibbleTrace c n rs) =
      [sendOk c (fmt c n rs false), .wait .tEP, sendOk c (fmt c n rs true), .wait .tEP] ++
        [.send c.devAddr (fmt c n rs false) (.error kind)] := rfl
  exact (List.append_inj' (h.trans hcut) rfl).1

/-- A NIBBLE whose third send fails leaves at the port the byte with E high, if the failed one does not reach it (R141). -/
theorem exec_nibble_fails_third {n rs : Nat} {kind : BusKind} {s : State} (hn : n < 16) (hrs : rs < 2)
    (hc : s.cfg.legal = true) (hf : FaultFree 2 s) (hlost : s.turnAt 2 = .error kind false) :
    ∃ t, exec (.nibble n rs) s = .next t ∧ t.port = fmt s.cfg (BitVec.ofNat 4 n) (decide (rs = 1)) true := by
  have hfail : FailsFirstAt 2 kind s := ⟨hf, congrArg Turn.reply hlost⟩
  obtain ⟨u, m, rs', en, tr, hrun, advance, -, hcut, -, -⟩ := runActs_fails
    (acts := Prim.acts (.nibble (BitVec.ofNat 4 n) (decide (rs = 1)))) hfail (Nat.lt_succ_self 2)
  have hnext : exec (.nibble n rs) s = .next ((u.sent (fmt s.cfg m rs' en)).raise kind) :=
    (runPrimitive_admitted _ (nibble_wellFormed hn hrs) hc).trans (by rw [runPrim, hrun, Run.state])
  have hlands : (u.turnAt 0).lands = false := by rw [advance.turnAt, hlost]; rfl
  obtain rfl := before_third_send hcut
  exact ⟨_, hnext, by rw [raise_port, State.sent_port_of_not_lands hlands, advance.port]; rfl⟩

/-- Settles O20: the byte the second send left at the port has E high. -/
theorem failedFallingEdgeLeavesEHigh : Obligations.FailedFallingEdgeLeavesEHigh := by
  intro n rs kind s hn hrs hc hf hlost
  obtain ⟨t, ht, hport⟩ := exec_nibble_fails_third hn hrs hc hf hlost
  exact ⟨t, ht, by rw [hport, fmt_enBit hc]⟩

/-! Every admitted operation ends. -/

/-- The operations of the port are INIT, DETACH and the commands (30_encoding.md R63). -/
theorem isCommand_of_onPort {i : Instr} (hp : i.onPort = true) (hinit : i ≠ .init) (hdetach : i ≠ .detach) :
    i.isCommand = true := by
  cases i with
  | init => exact absurd rfl hinit
  | detach => exact absurd rfl hdetach
  | nibble | byte | wait => cases hp
  | clear | home | entry | dispctl | funcset | setddram | write | setcursor => rfl

/-- An operation of the port ends with one of its own statuses (R132): the error of INIT is an InitError, that of a command a
BusError, and DETACH, which makes no send, has none. -/
theorem OperationRan.status {i : Instr} {s t : State} (ran : OperationRan i s t) (hp : i.onPort = true)
    (h : exec i s = .next t) :
    t.status = .ok ∨ (t.status = .busError ∧ i.isCommand = true) ∨ (t.status = .initError ∧ i = .init) := by
  cases ran.ending with
  | ok status => exact .inl status
  | initError form status => exact .inr (.inr ⟨status, form⟩)
  | busError hinit status =>
    by_cases hdetach : i = .detach
    · subst hdetach
      cases (exec_detach ran.admitted).symm.trans h
      exact .inl rfl
    · exact .inr (.inl ⟨status, isCommand_of_onPort hp hinit hdetach⟩)

/-- Settles O21: an admitted operation answers a next state, and that is one of the ends of an operation. -/
theorem admittedOperationAlwaysEnds : Obligations.AdmittedOperationAlwaysEnds := by
  intro i s hp hw hidle
  obtain ⟨ho, hlife, hc⟩ := hidle
  obtain ⟨t, ht⟩ := (operationAdmittedOnlyInItsState i s hp hw hc ho).1 hlife
  have ran := operationRan_of_exec hp ho ht
  exact ⟨t, ht, ran.op_none, ran.pc_zero, ran.status hp ht⟩

end Sys2Proof.Machine
end

section
/-! PROOFS. Reset and timing (70_reset_and_hazards.md): the sends and the minimum wait total of every operation and primitive
(R169), and the attach (R155). -/

namespace Sys2Proof.Machine

/-! Minimum durations. -/

theorem sendCount_postDelay (i : Instr) : sendCount (postDelay i) = 0 := by
  unfold postDelay
  split <;> rfl

/-- Only the post-delay of CLEAR and HOME adds to the waits of a command (R105). -/
theorem waitTotal_postDelay (i : Instr) : waitTotal (postDelay i) = if i = .clear ∨ i = .home then 2000 else 0 := by
  unfold postDelay
  split <;> rfl

theorem waitTotal_initTrace (c : Cfg) : waitTotal (initTrace c) = 81000 := by
  simp [initTrace, WaitName.micros]

/-- On a fault-free bus `i` answers a next state whose new events have `sends` sends and the minimum wait total `micros`. -/
def Lasts (i : Instr) (sends micros : Nat) (s : State) : Prop :=
  ∃ t tr, exec i s = .next t ∧ t.trace = s.trace ++ tr ∧ (sendCount tr, waitTotal tr) = (sends, micros)

/-- A command lasts as long as its one byte transfer and its post-delay. -/
theorem command_lasts {i : Instr} {s : State} (hi : i.isCommand = true) (hw : i.wellFormed = true)
    (hidle : IdleIn .ready s) (hf : FaultFree 42 s) :
    Lasts i 6 (2000 + if i = .clear ∨ i = .home then 2000 else 0) s := by
  obtain ⟨rs, v, -, -, hcode, -⟩ := exec_command i hi
  obtain ⟨t, ht, sent⟩ := exec_command_ok hcode hw hidle (hf.mono (by decide))
  refine ⟨t, _, ht, sent.trace, ?_⟩
  rw [sendCount_append, waitTotal_append, sendCount_byteTrace, waitTotal_byteTrace, sendCount_postDelay,
    waitTotal_postDelay]

theorem init_lasts {s : State} (hidle : IdleIn .reset s) (hf : FaultFree 42 s) : Lasts .init 42 81000 s := by
  obtain ⟨t, ht, sent⟩ := exec_init_ok hidle hf
  exact ⟨t, _, ht, sent.trace, by rw [sendCount_initTrace, waitTotal_initTrace]⟩

theorem detach_lasts {s : State} (hidle : IdleIn .ready s) : Lasts .detach 0 0 s :=
  ⟨_, [], exec_detach hidle, (List.append_nil _).symm, rfl⟩

theorem nibble_lasts {n rs : Nat} {s : State} (hn : n < 16) (hrs : rs < 2) (hc : s.cfg.legal = true)
    (hf : FaultFree 42 s) : Lasts (.nibble n rs) 3 1000 s := by
  obtain ⟨t, ht, htrace, -⟩ := nibbleMakesOnePulse n rs s hn hrs hc (hf.mono (by decide))
  exact ⟨t, _, ht, htrace, by rw [sendCount_nibbleTrace, waitTotal_nibbleTrace]⟩

/-- A byte lasts as long as its two nibbles. -/
theorem byte_lasts {v rs : Nat} {s : State} (hv : v < 256) (hrs : rs < 2) (hc : s.cfg.legal = true)
    (hf : FaultFree 42 s) : Lasts (.byte v rs) 6 2000 s := by
  obtain ⟨t, ht, htrace, -⟩ := byteSendsHighNibbleFirst v rs s hv hrs hc (hf.mono (by decide))
  exact ⟨t, _, ht, htrace, by simp⟩

theorem wait_lasts (w : WaitName) {s : State} (hc : s.cfg.legal = true) : Lasts (.wait w) 0 w.micros s :=
  ⟨s.waits w, [.wait w], exec_prim (.wait w) hc, rfl, by simp⟩

/-- Settles O15: INIT, DETACH and the primitives each by their own trace, the commands by their one byte transfer. -/
theorem minimumDurations : Obligations.MinimumDurations := by
  intro i s hw hf hc hidle
  cases i with
  | init => exact init_lasts (hidle rfl) hf
  | detach => exact detach_lasts (hidle rfl)
  | nibble n rs =>
    obtain ⟨hn, hrs⟩ : n < 16 ∧ rs < 2 := by simpa [Instr.wellFormed] using hw
    exact nibble_lasts hn hrs hc hf
  | byte v rs =>
    obtain ⟨hv, hrs⟩ : v < 256 ∧ rs < 2 := by simpa [Instr.wellFormed] using hw
    exact byte_lasts hv hrs hc hf
  | wait w => exact wait_lasts w hc
  | clear | home | entry | dispctl | funcset | setddram | write | setcursor =>
    exact command_lasts rfl hw (hidle rfl) hf

/-! Attach. -/

/-- Settles O29: attach writes the reset values that the reset state holds (10_state.md R33), and neither the port nor the
controller. -/
theorem attachResetsTheBlock : Obligations.AttachResetsTheBlock :=
  fun _ _ => ⟨rfl, rfl, rfl, rfl, rfl, rfl, rfl, rfl, rfl⟩

end Sys2Proof.Machine
end

section
/-! PROOFS. The step law: what one step runs, from what its fetch finds (10_state.md section 2, 30_encoding.md section 1). -/

namespace Sys2Proof.Machine

/-- With a primitive of the running operation left, the fetch finds that primitive. -/
theorem fetch_of_rest {s : State} {m : Micro} {ms : List Micro} (hr : s.rest = m :: ms) :
    fetch s = .run m.prim.toInstr (s.enter m ms) := by
  simp only [fetch, hr]

/-- With nothing running, the fetch takes the oldest offer. -/
theorem fetch_of_offer {s : State} {o : Offer} {os : List Offer} (ho : s.op = none) (hr : s.rest = [])
    (hf : s.offers = o :: os) : fetch s = takeOffer o { s with offers := os } := by
  simp only [fetch, hr, ho, hf]

/-- An operation of the port runs whether it is offered itself or as a word of the opcode table. -/
theorem takeOffer_op {i : Instr} (hi : i.onPort = true) (s : State) : takeOffer (.op i) s = .run i s :=
  if_pos hi

theorem takeOffer_word {nbits w : Nat} {i : Instr} (hd : decodeTableWord nbits w = some i) (hi : i.onPort = true)
    (s : State) : takeOffer (.word nbits w) s = .run i s := by
  simp only [takeOffer, hd, offered, if_pos hi]

/-- A step is exec of the instruction that its fetch finds. -/
theorem step_of_fetch_run {i : Instr} {s t : State} (h : fetch s = .run i t) : step s = exec i t := by
  simp only [step, h]

/-- Settles O27: each clause says what the fetch finds, and the step is exec of that. -/
theorem stepRunsTheDecodedInstruction : Obligations.StepRunsTheDecodedInstruction := by
  refine ⟨fun s i os ho hr hf hi => ?offeredOperation, fun s nbits w i os ho hr hf hd hi => ?offeredWord,
    fun s m ms hr => ?nextPrimitive⟩
  case offeredOperation => exact step_of_fetch_run ((fetch_of_offer ho hr hf).trans (takeOffer_op hi _))
  case offeredWord => exact step_of_fetch_run ((fetch_of_offer ho hr hf).trans (takeOffer_word hd hi _))
  case nextPrimitive => exact step_of_fetch_run (fetch_of_rest hr)

end Sys2Proof.Machine
end
